-- ==== Sys2Proof/Word.lean ====
section
/-! DEFINITION. The word types of the machine (spec/00_scope.md R7, R8; spec/30_encoding.md R71).
Every value is an unsigned number of a stated width. -/

namespace Sys2Proof

/-- A byte: a general register, a timer, a memory cell, the immediate `NN` (R6 `XLEN`). -/
abbrev Byte := BitVec 8

/-- A 16-bit word: `pc`, `I`, a call-stack entry, an instruction word (R6 `PC_W`, `I_W`, `STACK_W`). -/
abbrev Word := BitVec 16

/-- The 12-bit address immediate `NNN` (R71). -/
abbrev Imm12 := BitVec 12

/-- The number of a general register, 0x0..0xF (R21). -/
abbrev Reg := Fin 16

/-- The number of a key, 0x0..0xF (R28). -/
abbrev Key := Fin 16

/-- The row count `N` of a sprite, 0..15 (R73). -/
abbrev RowCount := Fin 16

end Sys2Proof
end

