-- ==== Sys2Proof/Syntax.lean ====
section
/-! DEFINITION. The instructions of the machine, one constructor per row of spec/opcode_table.json, in the table's
order (spec/30_encoding.md R74). Register fields are register numbers and immediates have their encoded width, so that
almost every term is well formed; `WellFormed.lean` holds the one check that is left. -/

namespace Sys2Proof

inductive Instr where
  /-- `00E0` CLS (R160). -/
  | cls
  /-- `00EE` RET (R121). -/
  | ret
  /-- `1NNN` JP NNN (R123). -/
  | jpNNN (nnn : Imm12)
  /-- `2NNN` CALL NNN (R122). -/
  | callNNN (nnn : Imm12)
  /-- `3XNN` SE Vx,NN (R125). -/
  | seVxNN (x : Reg) (nn : Byte)
  /-- `4XNN` SNE Vx,NN (R126). -/
  | sneVxNN (x : Reg) (nn : Byte)
  /-- `5XY0` SE Vx,Vy (R127). -/
  | seVxVy (x y : Reg)
  /-- `6XNN` LD Vx,NN (R101). -/
  | ldVxNN (x : Reg) (nn : Byte)
  /-- `7XNN` ADD Vx,NN (R102). -/
  | addVxNN (x : Reg) (nn : Byte)
  /-- `8XY0` LD Vx,Vy (R103). -/
  | ldVxVy (x y : Reg)
  /-- `8XY1` OR Vx,Vy (R104). -/
  | orVxVy (x y : Reg)
  /-- `8XY2` AND Vx,Vy (R105). -/
  | andVxVy (x y : Reg)
  /-- `8XY3` XOR Vx,Vy (R106). -/
  | xorVxVy (x y : Reg)
  /-- `8XY4` ADD Vx,Vy (R107). -/
  | addVxVy (x y : Reg)
  /-- `8XY5` SUB Vx,Vy (R108). -/
  | subVxVy (x y : Reg)
  /-- `8XY6` SHR Vx (R109); the `Y` nibble is in the encoding and is not used (R77). -/
  | shrVx (x y : Reg)
  /-- `8XY7` SUBN Vx,Vy (R110). -/
  | subnVxVy (x y : Reg)
  /-- `8XYE` SHL Vx (R111); the `Y` nibble is in the encoding and is not used (R77). -/
  | shlVx (x y : Reg)
  /-- `9XY0` SNE Vx,Vy (R128). -/
  | sneVxVy (x y : Reg)
  /-- `ANNN` LD I,NNN (R140). -/
  | ldINNN (nnn : Imm12)
  /-- `BNNN` JP Vx,NNN (R124); `x` is the top nibble of `nnn` (R72, R78). -/
  | jpVxNNN (x : Reg) (nnn : Imm12)
  /-- `CXNN` RND Vx,NN (R112). -/
  | rndVxNN (x : Reg) (nn : Byte)
  /-- `DXYN` DRW Vx,Vy,N (R161). -/
  | drwVxVyN (x y : Reg) (n : RowCount)
  /-- `EX9E` SKP Vx (R173). -/
  | skpVx (x : Reg)
  /-- `EXA1` SKNP Vx (R174). -/
  | sknpVx (x : Reg)
  /-- `FX07` LD Vx,DT (R170). -/
  | ldVxDT (x : Reg)
  /-- `FX0A` LD Vx,K (R175). -/
  | ldVxK (x : Reg)
  /-- `FX15` LD DT,Vx (R171). -/
  | ldDTVx (x : Reg)
  /-- `FX18` LD ST,Vx (R172). -/
  | ldSTVx (x : Reg)
  /-- `FX1E` ADD I,Vx (R142). -/
  | addIVx (x : Reg)
  /-- `FX29` LD F,Vx (R144). -/
  | ldFVx (x : Reg)
  /-- `FX33` LD B,Vx (R146). -/
  | ldBVx (x : Reg)
  /-- `FX55` LD [I],V (R150); the `X` nibble is in the encoding and is not used (R77). -/
  | ldIV (x : Reg)
  /-- `FX65` LD V,[I] (R152); the `X` nibble is in the encoding and is not used (R77). -/
  | ldVI (x : Reg)
  deriving DecidableEq, Repr

end Sys2Proof
end

