-- ==== Sys2Proof/WellFormed.lean ====
section
/-! DEFINITION. Which terms of `Instr` are instructions. The types bound every field but one: `JP Vx,NNN` names its
register twice, in `X` and in the top nibble of `NNN`, and an assembler refuses any pair that differs
(spec/30_encoding.md R72, R78). -/

namespace Sys2Proof

/-- The register that `JP Vx,NNN` reads is `NNN[11:8]` (R72, R124). -/
def Instr.jumpRegister (nnn : Imm12) : Reg := (nnn.extractLsb' 8 4).toFin

/-- Well formed: the register of `JP Vx,NNN` is the one its address names (R78). -/
def Instr.wellFormed : Instr → Bool
  | .jpVxNNN x nnn => x == Instr.jumpRegister nnn
  | .cls | .ret | .jpNNN _ | .callNNN _ | .ldINNN _ => true
  | .seVxNN _ _ | .sneVxNN _ _ | .ldVxNN _ _ | .addVxNN _ _ | .rndVxNN _ _ => true
  | .seVxVy _ _ | .sneVxVy _ _ | .ldVxVy _ _ | .orVxVy _ _ | .andVxVy _ _ | .xorVxVy _ _ => true
  | .addVxVy _ _ | .subVxVy _ _ | .shrVx _ _ | .subnVxVy _ _ | .shlVx _ _ => true
  | .drwVxVyN _ _ _ => true
  | .skpVx _ | .sknpVx _ | .ldVxDT _ | .ldVxK _ | .ldDTVx _ | .ldSTVx _ => true
  | .addIVx _ | .ldFVx _ | .ldBVx _ | .ldIV _ | .ldVI _ => true

end Sys2Proof
end

