-- ==== Sys2Proof/Decode.lean ====
section
/-! DEFINITION. The decoder and the encoder (spec/30_encoding.md). Decoding reads the word and nothing else (R80); it is
total, and a word that is no instruction is rejected by the name of its class in R75. -/

namespace Sys2Proof

/-! ## Fields (R71) -/

/-- `OP = ir[15:12]`. -/
def Field.op (ir : Word) : BitVec 4 := ir.extractLsb' 12 4

/-- `X = ir[11:8]`. -/
def Field.x (ir : Word) : Reg := (ir.extractLsb' 8 4).toFin

/-- `Y = ir[7:4]`. -/
def Field.y (ir : Word) : Reg := (ir.extractLsb' 4 4).toFin

/-- `N = ir[3:0]`, as the bits that select a row. -/
def Field.nBits (ir : Word) : BitVec 4 := ir.extractLsb' 0 4

/-- `N = ir[3:0]`, as a row count. -/
def Field.n (ir : Word) : RowCount := (Field.nBits ir).toFin

/-- `NN = ir[7:0]`. -/
def Field.nn (ir : Word) : Byte := ir.extractLsb' 0 8

/-- `NNN = ir[11:0]`. -/
def Field.nnn (ir : Word) : Imm12 := ir.extractLsb' 0 12

/-! ## Decoding (R74, R75, R80) -/

/-- Why bytes are no instruction: the six classes of R75, and fewer than two bytes. -/
inductive Illegal where
  /-- R75 (a): `0NNN` other than `00E0` and `00EE`. -/
  | family0
  /-- R75 (b): `5XYn` with `n != 0`. -/
  | family5
  /-- R75 (c): `8XYn` with `n` in 8, 9, A, B, C, D, F. -/
  | family8
  /-- R75 (d): `9XYn` with `n != 0`. -/
  | family9
  /-- R75 (e): `EXnn` with `nn` not 9E or A1. -/
  | familyE
  /-- R75 (f): `FXnn` with `nn` not one of the nine function bytes. -/
  | familyF
  /-- Fewer than the two bytes of a word (R70). -/
  | truncated
  deriving DecidableEq, Repr

/-- Family 0: the whole word is fixed (R80). -/
def decodeFamily0 (ir : Word) : Except Illegal Instr :=
  if ir = 0x00E0 then .ok .cls
  else if ir = 0x00EE then .ok .ret
  else .error .family0

/-- Family 8: selected by `N` (R80). -/
def decodeFamily8 (x y : Reg) (n : BitVec 4) : Except Illegal Instr :=
  match n with
  | 0x0#4 => .ok (.ldVxVy x y)
  | 0x1#4 => .ok (.orVxVy x y)
  | 0x2#4 => .ok (.andVxVy x y)
  | 0x3#4 => .ok (.xorVxVy x y)
  | 0x4#4 => .ok (.addVxVy x y)
  | 0x5#4 => .ok (.subVxVy x y)
  | 0x6#4 => .ok (.shrVx x y)
  | 0x7#4 => .ok (.subnVxVy x y)
  | 0xE#4 => .ok (.shlVx x y)
  | _ => .error .family8

/-- Family E: selected by `NN` (R80). -/
def decodeFamilyE (x : Reg) (nn : Byte) : Except Illegal Instr :=
  match nn with
  | 0x9E#8 => .ok (.skpVx x)
  | 0xA1#8 => .ok (.sknpVx x)
  | _ => .error .familyE

/-- Family F: selected by `NN` (R80). -/
def decodeFamilyF (x : Reg) (nn : Byte) : Except Illegal Instr :=
  match nn with
  | 0x07#8 => .ok (.ldVxDT x)
  | 0x0A#8 => .ok (.ldVxK x)
  | 0x15#8 => .ok (.ldDTVx x)
  | 0x18#8 => .ok (.ldSTVx x)
  | 0x1E#8 => .ok (.addIVx x)
  | 0x29#8 => .ok (.ldFVx x)
  | 0x33#8 => .ok (.ldBVx x)
  | 0x55#8 => .ok (.ldIV x)
  | 0x65#8 => .ok (.ldVI x)
  | _ => .error .familyF

/-- `Decode(ir)`, the decision tree of R80. The last arm is `OP = F`. -/
def decode (ir : Word) : Except Illegal Instr :=
  match Field.op ir with
  | 0x0#4 => decodeFamily0 ir
  | 0x1#4 => .ok (.jpNNN (Field.nnn ir))
  | 0x2#4 => .ok (.callNNN (Field.nnn ir))
  | 0x3#4 => .ok (.seVxNN (Field.x ir) (Field.nn ir))
  | 0x4#4 => .ok (.sneVxNN (Field.x ir) (Field.nn ir))
  | 0x5#4 => if Field.nBits ir = 0 then .ok (.seVxVy (Field.x ir) (Field.y ir)) else .error .family5
  | 0x6#4 => .ok (.ldVxNN (Field.x ir) (Field.nn ir))
  | 0x7#4 => .ok (.addVxNN (Field.x ir) (Field.nn ir))
  | 0x8#4 => decodeFamily8 (Field.x ir) (Field.y ir) (Field.nBits ir)
  | 0x9#4 => if Field.nBits ir = 0 then .ok (.sneVxVy (Field.x ir) (Field.y ir)) else .error .family9
  | 0xA#4 => .ok (.ldINNN (Field.nnn ir))
  | 0xB#4 => .ok (.jpVxNNN (Field.x ir) (Field.nnn ir))
  | 0xC#4 => .ok (.rndVxNN (Field.x ir) (Field.nn ir))
  | 0xD#4 => .ok (.drwVxVyN (Field.x ir) (Field.y ir) (Field.n ir))
  | 0xE#4 => decodeFamilyE (Field.x ir) (Field.nn ir)
  | _ => decodeFamilyF (Field.x ir) (Field.nn ir)

/-! ## Words in memory (R53, R70) -/

/-- The word `{hi, lo}`: the byte at the lower address is the high byte (R53, decision D2). -/
def wordOfBytes (hi lo : Byte) : Word := hi ++ lo

/-- The byte `ir[15:8]`, stored at the lower address (R53). -/
def highByte (ir : Word) : Byte := ir.extractLsb' 8 8

/-- The byte `ir[7:0]`, stored at the higher address (R53). -/
def lowByte (ir : Word) : Byte := ir.extractLsb' 0 8

/-- Decode the first instruction of a byte string, and give the bytes after it (R70). -/
def decodeBytes : List Byte → Except Illegal (Instr × List Byte)
  | hi :: lo :: rest => (decode (wordOfBytes hi lo)).map fun i => (i, rest)
  | _ => .error .truncated

/-! ## Encoding (R72, R74) -/

/-- A word of format A: `OP` and the address `NNN`. -/
def formatA (op : BitVec 4) (nnn : Imm12) : Word := op ++ nnn

/-- A word of format XB: `OP`, `X` and the byte `NN`; with a fixed byte it is format XF. -/
def formatXB (op : BitVec 4) (x : Reg) (nn : Byte) : Word :=
  op ++ ((BitVec.ofFin (w := 4) x ++ nn : BitVec 12))

/-- A word of format XYN: `OP`, `X`, `Y` and the nibble `N`; with a fixed nibble it is format XY. -/
def formatXY (op : BitVec 4) (x y : Reg) (n : BitVec 4) : Word :=
  op ++ ((BitVec.ofFin (w := 4) x ++ (BitVec.ofFin (w := 4) y ++ n : BitVec 8) : BitVec 12))

/-- The word of an instruction (R74). -/
def encode : Instr → Word
  | .cls => 0x00E0
  | .ret => 0x00EE
  | .jpNNN nnn => formatA 0x1 nnn
  | .callNNN nnn => formatA 0x2 nnn
  | .seVxNN x nn => formatXB 0x3 x nn
  | .sneVxNN x nn => formatXB 0x4 x nn
  | .seVxVy x y => formatXY 0x5 x y 0x0
  | .ldVxNN x nn => formatXB 0x6 x nn
  | .addVxNN x nn => formatXB 0x7 x nn
  | .ldVxVy x y => formatXY 0x8 x y 0x0
  | .orVxVy x y => formatXY 0x8 x y 0x1
  | .andVxVy x y => formatXY 0x8 x y 0x2
  | .xorVxVy x y => formatXY 0x8 x y 0x3
  | .addVxVy x y => formatXY 0x8 x y 0x4
  | .subVxVy x y => formatXY 0x8 x y 0x5
  | .shrVx x y => formatXY 0x8 x y 0x6
  | .subnVxVy x y => formatXY 0x8 x y 0x7
  | .shlVx x y => formatXY 0x8 x y 0xE
  | .sneVxVy x y => formatXY 0x9 x y 0x0
  | .ldINNN nnn => formatA 0xA nnn
  | .jpVxNNN _ nnn => formatA 0xB nnn
  | .rndVxNN x nn => formatXB 0xC x nn
  | .drwVxVyN x y n => formatXY 0xD x y (BitVec.ofFin (w := 4) n)
  | .skpVx x => formatXB 0xE x 0x9E
  | .sknpVx x => formatXB 0xE x 0xA1
  | .ldVxDT x => formatXB 0xF x 0x07
  | .ldVxK x => formatXB 0xF x 0x0A
  | .ldDTVx x => formatXB 0xF x 0x15
  | .ldSTVx x => formatXB 0xF x 0x18
  | .addIVx x => formatXB 0xF x 0x1E
  | .ldFVx x => formatXB 0xF x 0x29
  | .ldBVx x => formatXB 0xF x 0x33
  | .ldIV x => formatXB 0xF x 0x55
  | .ldVI x => formatXB 0xF x 0x65

/-! ## The host's view of a table word -/

/-- The word of a table row given as a number: the bits above `nbits` are zero. -/
def tableWord (nbits w : Nat) : Word := BitVec.ofNat 16 (w % 2 ^ nbits)

/-- The instruction the decoder reads from a table word, laid out in memory high byte first. -/
def decodeTableWord (nbits w : Nat) : Option Instr :=
  match decodeBytes [highByte (tableWord nbits w), lowByte (tableWord nbits w)] with
  | .ok (i, _) => some i
  | .error _ => none

end Sys2Proof
end

