-- ==== Sys2Proof/Config.lean ====
section
/-! DEFINITION. The constants of the hardware (spec/00_scope.md R6) and its one free value, the random byte
(spec/10_state.md R34). `TIMER_HZ` and `IPS` are rates, and no rule depends on them (R238). -/

namespace Sys2Proof

/-- `MEM_SIZE`: the number of bytes of memory (R6). -/
abbrev Config.memSize : Nat := 4096

/-- `PROG_BASE`: the load address of the program image and the reset value of `pc` (R6). -/
abbrev Config.progBase : Nat := 0x200

/-- `FONT_BASE`: the address of the first font glyph (R6). -/
abbrev Config.fontBase : Nat := 0x050

/-- `GLYPH_BYTES`: bytes per font glyph (R6). -/
abbrev Config.glyphBytes : Nat := 5

/-- The largest program image, `MEM_SIZE - PROG_BASE` = 3584 bytes (R231). -/
abbrev Config.maxImage : Nat := Config.memSize - Config.progBase

/-- The input port `rnd_in` at its `n`-th sampling (R34). A FREE VALUE: it has no body, so nothing can be proved of
what it gives, and every statement holds for every value of it (log entry 3). -/
opaque Config.rndIn : Nat → Byte

end Sys2Proof
end

