-- ==== Sys2Proof/Machine/State.lean ====
section
/-! DEFINITION. The state of the machine as plain data (spec/10_state.md R20), the faults of the spec, the actions of its
agents, and the state after reset (R35). -/

namespace Sys2Proof.Machine

/-- Memory as pairs (address, byte) in one canonical form (`Memory.wf`, Ops.lean): an address that is not listed reads
as its reset contents (log entry 1). R30, `20_memory.md` R50. -/
abbrev Memory := List Host.Cell

/-- The framebuffer, `FB[y][x]` with 32 rows of 64 pixels, `true` = on (R29). -/
abbrev FrameBuffer := Vector (Vector Bool 64) 32

/-- What the latch `FAULT` holds (R31; the codes are in `60_exceptions.md` R200 and `FaultCode.code`). -/
inductive FaultCode where
  /-- 0: the core runs, or was stopped without a fault. -/
  | noFault
  /-- 1 -/
  | decodeError
  /-- 2 -/
  | stackOverflow
  /-- 3 -/
  | outOfBoundsAccess
  /-- 4 -/
  | stackUnderflow
  /-- 5 -/
  | keyIndexError
  deriving DecidableEq, Repr

/-- The five faults with the value each records (`60_exceptions.md` R200). Fault entry is described by the spec (R208: it
writes the latch and halts the core), so a fault is TAKEN, in a next state, by `raise` of Ops.lean; no step of this model
answers the host's outcome `fault` (log entry 2). -/
inductive Fault where
  /-- R201: raised by the step whose fetched word is no instruction; records the word. Safe: the spec's own fault. -/
  | decodeError (ir : Word)
  /-- R202: raised by CALL on a full stack; records the `pc` of the CALL. Safe: the spec's own fault. -/
  | stackOverflow (pc : Word)
  /-- R203: raised by the fetch, DRW, LD B,Vx, LD [I],V and LD V,[I] on an address above 4095; records the lowest
  offending address. Safe: the spec's own fault. -/
  | outOfBoundsAccess (addr : Nat)
  /-- R204: raised by RET on an empty stack; records the `pc` of the RET. Safe: the spec's own fault. -/
  | stackUnderflow (pc : Word)
  /-- R205: raised by SKP and SKNP when `V[X] > 15`; records the value. Safe: the spec's own fault. -/
  | keyIndexError (k : Byte)
  deriving DecidableEq, Repr

/-- Why an instruction has no meaning. -/
inductive Refusal where
  /-- Raised by an arm of `exec` whose instruction has no meaning yet. Safe: nothing is claimed of it. No arm of this model
  raises it. -/
  | notModelled (mnemonic : String)
  deriving DecidableEq, Repr

/-- One atomic action of one of the five agents (R36). `LoadImage` stands with `Reset`, the only place the spec allows it
(`70_reset_and_hazards.md` R231, log entry 6). -/
inductive Action where
  /-- The CPU: one fetch, decode and execute (`00_scope.md` R11). -/
  | step
  /-- The timer: one 60 Hz tick (`60_exceptions.md` R212). -/
  | tick
  /-- The input bridge: a key is pressed or released (`60_exceptions.md` R214). -/
  | keyEvent (k : Key) (pressed : Bool)
  /-- The render bridge reads the framebuffer (`60_exceptions.md` R215). -/
  | snapshot
  /-- The host stops the core (`60_exceptions.md` R220). -/
  | stop
  /-- The host resets the machine and loads an image (`70_reset_and_hazards.md` R230, R231). -/
  | restart (image : List Byte)
  deriving DecidableEq, Repr

/-- The whole state (R20), then two fields of the model's own. -/
structure State where
  /-- `MEM` (R30). -/
  mem : Memory
  /-- `V0`..`VF` (R21); `v[15]` is the flag register `VF` (R22). -/
  v : Vector Byte 16
  /-- `I`, the index register (R23). -/
  i : Word
  /-- The program counter; between steps the address of the next instruction (R24). -/
  pc : Word
  /-- The call-stack entries, `STACK[0]` the oldest (R25). -/
  stack : Vector Word 16
  /-- `SP`, the number of valid entries, 0..16 (R25). -/
  sp : Fin 17
  /-- `DT`, the delay timer (R26). -/
  dt : Byte
  /-- `ST`, the sound timer (R27). -/
  st : Byte
  /-- `K`, the keypad latch, `true` = pressed (R28). -/
  keys : Vector Bool 16
  /-- `FB` (R29). -/
  fb : FrameBuffer
  /-- `FAULT` (R31). -/
  fault : FaultCode
  /-- `FAULT_INFO` (R31). -/
  faultInfo : Word
  /-- `STOPPED` (R31). -/
  stopped : Bool
  /-- THE MODEL'S OWN: how many times `rnd_in` has been sampled (R34, log entry 3). -/
  rndSamples : Nat
  /-- THE MODEL'S OWN: the actions that come next, the head first; with none listed the CPU steps (R36, log entry 4). -/
  sched : List Action
  deriving DecidableEq, Repr

/-- What a step, and every meaning, answers. -/
abbrev Result := Host.Outcome State Fault Refusal

/-- The machine right after `Reset`, before an image is loaded (R35, `70_reset_and_hazards.md` R230). Memory lists nothing:
an unlisted address reads as its reset contents, the font and zeros. -/
def State.reset : State where
  mem := []
  v := Vector.replicate 16 0
  i := 0
  pc := BitVec.ofNat 16 Config.progBase
  stack := Vector.replicate 16 0
  sp := 0
  dt := 0
  st := 0
  keys := Vector.replicate 16 false
  fb := Vector.replicate 32 (Vector.replicate 64 false)
  fault := .noFault
  faultInfo := 0
  stopped := false
  rndSamples := 0
  sched := []

end Sys2Proof.Machine
end

