-- ==== Sys2Proof/Machine/Flags.lean ====
section
/-! DEFINITION. The 8-bit results and the flag values of the ALU (spec/40_alu.md R100). Add sets the flag on the
exceptional case (carry), subtract on the unexceptional one (no borrow). -/

namespace Sys2Proof.Machine

/-- A flag as the byte `VF` holds. -/
def flagByte (f : Bool) : Byte := if f then 1 else 0

/-- The stored sum, `(a + b) mod 256`. -/
def sumByte (a b : Byte) : Byte := BitVec.ofNat 8 (a.toNat + b.toNat)

/-- The carry out: `a + b > 255`. -/
def carryOut (a b : Byte) : Bool := decide (a.toNat + b.toNat > 255)

/-- The stored difference, `(a - b) mod 256`. -/
def differenceByte (a b : Byte) : Byte := BitVec.ofNat 8 (a.toNat + 256 - b.toNat)

/-- No borrow: the minuend `a` is at least the subtrahend `b`. -/
def noBorrow (a b : Byte) : Bool := decide (b.toNat ≤ a.toNat)

/-- The bit a right shift drops, bit 0 (R109). -/
def lowBit (a : Byte) : Bool := a.getLsbD 0

/-- The bit a left shift drops, bit 7 (R111). -/
def highBit (a : Byte) : Bool := a.getLsbD 7

/-- Shift right by one, 0 shifted in (R109). -/
def halfByte (a : Byte) : Byte := BitVec.ofNat 8 (a.toNat / 2)

/-- Shift left by one, 0 shifted in (R111). -/
def doubleByte (a : Byte) : Byte := BitVec.ofNat 8 (a.toNat * 2)

end Sys2Proof.Machine
end

