-- ==== Sys2Proof/Machine/Operands.lean ====
section
/-! DEFINITION. Operand forms: how an instruction gets from its fields and registers to an address, a target, a digit, a
sprite bit or a key (spec/30_encoding.md R73, spec/42_memory_index.md R141). Nothing is sign-extended, scaled or wrapped. -/

namespace Sys2Proof.Machine

/-- `VF`, the flag register (R22). -/
abbrev VF : Reg := 15

/-- `zext_16` of a byte (R73). -/
def zextByte (b : Byte) : Word := b.setWidth 16

/-- `zext_16(NNN)` (R73). -/
def zextAddr (nnn : Imm12) : Word := nnn.setWidth 16

/-- The target of `JP Vx,NNN`: a 16-bit sum, not reduced modulo 4096 (R124). -/
def offsetTarget (nnn : Imm12) (b : Byte) : Word := zextAddr nnn + zextByte b

/-- The address of a glyph, `0x050 + 5 * digit`, on the whole byte without a mask (R144, decision D14). -/
def glyphAddr (b : Byte) : Word := BitVec.ofNat 16 (Config.fontBase + Config.glyphBytes * b.toNat)

/-- The three decimal digits, hundreds first (R146). -/
def decimalDigits (b : Byte) : List Byte :=
  [BitVec.ofNat 8 (b.toNat / 100), BitVec.ofNat 8 (b.toNat / 10 % 10), BitVec.ofNat 8 (b.toNat % 10)]

/-- The column a sprite starts at (R161). -/
def startColumn (b : Byte) : Nat := b.toNat % 64

/-- The row a sprite starts at (R161). -/
def startRow (b : Byte) : Nat := b.toNat % 32

/-- Column `c` of a sprite byte, 0..7 from the left: bit `7 - c` (R162, decision D9). -/
def spriteBit (b : Byte) (c : Nat) : Bool := b.getLsbD (7 - c)

/-- The lowest-numbered pressed key, if any is pressed (R175, decision D15). -/
def lowestKey (keys : Vector Bool 16) : Option Key := (List.finRange 16).find? fun k => keys[k.val]

/-- `I` as an unbounded address (R141). -/
def State.base (s : State) : Nat := s.i.toNat

end Sys2Proof.Machine
end

