-- ==== Sys2Proof/Machine/Ops.lean ====
section
/-! DEFINITION. The named operations over memory, registers, the call stack and the fault latch
(spec/20_memory.md, spec/10_state.md, spec/60_exceptions.md R208). -/

namespace Sys2Proof.Machine

/-! ## Memory cells (R50, R56; log entry 1) -/

/-- The 80 font bytes, glyph 0 to glyph F (R56, decision D19). -/
def fontBytes : List Byte :=
  [0xF0, 0x90, 0x90, 0x90, 0xF0,  0x20, 0x60, 0x20, 0x20, 0x70,
   0xF0, 0x10, 0xF0, 0x80, 0xF0,  0xF0, 0x10, 0xF0, 0x10, 0xF0] ++
  [0x90, 0x90, 0xF0, 0x10, 0x10,  0xF0, 0x80, 0xF0, 0x10, 0xF0,
   0xF0, 0x80, 0xF0, 0x90, 0xF0,  0xF0, 0x10, 0x20, 0x40, 0x40] ++
  [0xF0, 0x90, 0xF0, 0x90, 0xF0,  0xF0, 0x90, 0xF0, 0x10, 0xF0,
   0xF0, 0x90, 0xF0, 0x90, 0x90,  0xE0, 0x90, 0xE0, 0x90, 0xE0] ++
  [0xF0, 0x80, 0x80, 0x80, 0xF0,  0xE0, 0x90, 0x90, 0x90, 0xE0,
   0xF0, 0x80, 0xF0, 0x80, 0xF0,  0xF0, 0x80, 0xF0, 0x80, 0x80]

/-- What an address that is not listed reads as: its contents after reset, the font at 0x050..0x09F and zero elsewhere
(R35, R56). -/
def resetByte (a : Nat) : Byte :=
  if Config.fontBase ≤ a then fontBytes.getD (a - Config.fontBase) 0 else 0

/-- The byte at an address. -/
def Memory.read : Memory → Nat → Byte
  | [], a => resetByte a
  | (b, w) :: m, a => if a = b then w else Memory.read m a

/-- The cell list of one byte: nothing where the byte is what the address reads as anyway. -/
def Memory.cell (a : Nat) (v : Byte) : Memory := if v = resetByte a then [] else [(a, v)]

/-- Write one byte, keeping the canonical form. -/
def Memory.write : Memory → Nat → Byte → Memory
  | [], a, v => Memory.cell a v
  | (b, w) :: m, a, v =>
    if a < b then Memory.cell a v ++ (b, w) :: m
    else if a = b then Memory.cell a v ++ m
    else (b, w) :: Memory.write m a v

/-- Write bytes at ascending addresses. -/
def Memory.writeAll : Memory → Nat → List Byte → Memory
  | m, _, [] => m
  | m, a, v :: vs => Memory.writeAll (m.write a v) (a + 1) vs

/-- The canonical form: addresses strictly rising, all inside memory, and no cell equal to what its address reads as
unlisted. -/
abbrev Memory.wf (m : Memory) : Prop :=
  m.Pairwise (fun c d => c.1 < d.1) ∧ ∀ c ∈ m, c.1 < Config.memSize ∧ c.2 ≠ resetByte c.1

/-! ## Registers -/

/-- `V[r]` (R21). -/
def State.getV (s : State) (r : Reg) : Byte := s.v[r.val]

/-- `V[r] <- b` (R21). -/
def State.setV (s : State) (r : Reg) (b : Byte) : State := { s with v := s.v.set r.val b }

/-- `VF <- 1` or `VF <- 0` (R22). -/
def State.setFlag (s : State) (f : Bool) : State := s.setV VF (flagByte f)

/-- All sixteen registers at once (R152). -/
def State.setAllV (s : State) (bs : List Byte) : State :=
  { s with v := Vector.ofFn fun r : Fin 16 => bs.getD r.val 0 }

/-- `I <- w` (R23). -/
def State.setI (s : State) (w : Word) : State := { s with i := w }

/-- `pc <- w` (R24). -/
def State.jump (s : State) (w : Word) : State := { s with pc := w }

/-- `pc <- pc + 2` (R120). -/
def State.advance (s : State) : State := s.jump (s.pc + 2)

/-- `pc <- pc + 4` where the condition holds, else `pc <- pc + 2` (R120). -/
def State.skipIf (s : State) (c : Bool) : State := s.jump (s.pc + if c then 4 else 2)

/-- `DT <- b` (R26). -/
def State.setDT (s : State) (b : Byte) : State := { s with dt := b }

/-- `ST <- b` (R27). -/
def State.setST (s : State) (b : Byte) : State := { s with st := b }

/-- `FB <- f` (R29). -/
def State.setFB (s : State) (f : FrameBuffer) : State := { s with fb := f }

/-- `MEM <- m` (R30). -/
def State.setMem (s : State) (m : Memory) : State := { s with mem := m }

/-- One sampling of `rnd_in` has happened (R34). -/
def State.sampled (s : State) : State := { s with rndSamples := s.rndSamples + 1 }

/-! ## The framebuffer (R29) -/

/-- `FB[y][x]`. -/
def FrameBuffer.pixel (f : FrameBuffer) (y : Fin 32) (x : Fin 64) : Bool := (f[y.val])[x.val]

/-- `FB[y][x] <- FB[y][x] xor 1`. -/
def FrameBuffer.toggle (f : FrameBuffer) (y : Fin 32) (x : Fin 64) : FrameBuffer :=
  f.set y.val ((f[y.val]).set x.val (!(f[y.val])[x.val]))

/-- Every pixel off. -/
def FrameBuffer.clear : FrameBuffer := Vector.replicate 32 (Vector.replicate 64 false)

/-! ## Faults (R200, R208) -/

/-- The numeric code of the latch (R200). -/
def FaultCode.code : FaultCode → BitVec 3
  | .noFault => 0
  | .decodeError => 1
  | .stackOverflow => 2
  | .outOfBoundsAccess => 3
  | .stackUnderflow => 4
  | .keyIndexError => 5

/-- `code(F)` of a fault (R200, R208). -/
def Fault.kind : Fault → FaultCode
  | .decodeError _ => .decodeError
  | .stackOverflow _ => .stackOverflow
  | .outOfBoundsAccess _ => .outOfBoundsAccess
  | .stackUnderflow _ => .stackUnderflow
  | .keyIndexError _ => .keyIndexError

/-- What a fault records in `FAULT_INFO` (R200). -/
def Fault.info : Fault → Word
  | .decodeError ir => ir
  | .stackOverflow pc => pc
  | .outOfBoundsAccess a => BitVec.ofNat 16 a
  | .stackUnderflow pc => pc
  | .keyIndexError k => zextByte k

/-- `FAULT <- code(F); FAULT_INFO <- info` and nothing else (R208). -/
def State.latch (s : State) (f : Fault) : State := { s with fault := f.kind, faultInfo := f.info }

/-- TAKING A FAULT (R208, `00_scope.md` R10): the latch is written in the state as it was before the step, so nothing the
step had written is kept and `pc` still addresses the faulting instruction. There is no return from a fault (R209). -/
def raise (f : Fault) (s : State) : Result := .next (s.latch f)

/-- End a step: keep what it did, or take the fault it raised in the state `s` before it (`00_scope.md` R10, R208). -/
def finish (s : State) : Except Fault State → Result
  | .ok t => .next t
  | .error f => raise f s

/-- Halted: `FAULT != 0` or `STOPPED` (R210). -/
def State.halted (s : State) : Bool := s.fault != .noFault || s.stopped

/-! ## Memory access (R51, R52, R53, R63) -/

/-- `MemRead(addr, 1)` (R51). -/
def memRead (s : State) (a : Nat) : Except Fault Byte :=
  if a > 4095 then .error (.outOfBoundsAccess a) else .ok (s.mem.read a)

/-- `MemWrite(addr, 1, v)` (R52). -/
def memWrite (s : State) (a : Nat) (v : Byte) : Except Fault State :=
  if a > 4095 then .error (.outOfBoundsAccess a) else .ok (s.setMem (s.mem.write a v))

/-- The bounds check of an access to `n` bytes from `base`, made before anything is written (R63). -/
def checkRange (base n : Nat) : Except Fault Unit :=
  if n > 0 ∧ base + n - 1 > 4095 then .error (.outOfBoundsAccess (max base 4096)) else .ok ()

/-- `MemRead` of `n` bytes at ascending addresses (R58). -/
def readEach (s : State) : Nat → Nat → Except Fault (List Byte)
  | _, 0 => .ok []
  | a, n + 1 => do
    let b ← memRead s a
    let bs ← readEach s (a + 1) n
    return b :: bs

/-- `MemWrite` of bytes at ascending addresses (R58). -/
def writeEach : State → Nat → List Byte → Except Fault State
  | s, _, [] => .ok s
  | s, a, v :: vs => do
    let t ← memWrite s a v
    writeEach t (a + 1) vs

/-- Read `n` bytes from `base`, the whole range checked first (R63). -/
def readBytes (s : State) (base n : Nat) : Except Fault (List Byte) := do
  checkRange base n
  readEach s base n

/-- Write bytes from `base`, the whole range checked first (R63). -/
def writeBytes (s : State) (base : Nat) (bs : List Byte) : Except Fault State := do
  checkRange base bs.length
  writeEach s base bs

/-- Instruction fetch, `MemRead(pc, 2)`: the byte at `pc` is the high byte (R53). -/
def fetch (s : State) : Except Fault Word := do
  checkRange s.pc.toNat 2
  let hi ← memRead s s.pc.toNat
  let lo ← memRead s (s.pc.toNat + 1)
  return wordOfBytes hi lo

/-! ## The call stack (R25) -/

/-- Push the address after the instruction; a full stack is `StackOverflow` (R122, R202). -/
def pushReturn (s : State) : Except Fault State :=
  if h : s.sp.val < 16 then
    .ok { s with stack := s.stack.set s.sp.val (s.pc + 2), sp := ⟨s.sp.val + 1, by omega⟩ }
  else .error (.stackOverflow s.pc)

/-- Pop the newest return address into `pc`; an empty stack is `StackUnderflow` (R121, R204). -/
def popReturn (s : State) : Except Fault State :=
  if h : 0 < s.sp.val then
    .ok { s with sp := ⟨s.sp.val - 1, by omega⟩, pc := s.stack[s.sp.val - 1] }
  else .error (.stackUnderflow s.pc)

/-! ## The keypad latch (R28) -/

/-- `K[k]` for an index that may be no key: above 15 it is `KeyIndexError` (R173, R205). -/
def readKey (s : State) (b : Byte) : Except Fault Bool :=
  if h : b.toNat < 16 then .ok s.keys[b.toNat] else .error (.keyIndexError b)

/-- `K[k] <- v` (R214). -/
def State.setKey (s : State) (k : Key) (v : Bool) : State := { s with keys := s.keys.set k.val v }

end Sys2Proof.Machine
end

