-- ==== Sys2Proof/Machine/Agents.lean ====
section
/-! DEFINITION. The actions of the agents other than the CPU, and the machine's outputs
(spec/60_exceptions.md R212 to R215, R220; spec/70_reset_and_hazards.md R230, R231; spec/10_state.md R38). -/

namespace Sys2Proof.Machine

/-- A timer counts down to 0 and stays there (R212). -/
def countDown (b : Byte) : Byte := BitVec.ofNat 8 (b.toNat - 1)

/-- `Tick` (R212); no effect on a halted core (R210). -/
def State.tick (s : State) : State :=
  if s.halted then s else { s with dt := countDown s.dt, st := countDown s.st }

/-- The event a tick emits, `some true` for tone-on and `some false` for tone-off: `ST` is tested before the decrement, and
a tick of a halted core emits nothing (R210, R212, decision D21). -/
def State.tickTone (s : State) : Option Bool := if s.halted then none else some (s.st != 0)

/-- `KeyEvent(k, v)` (R214); no effect on a halted core (R210). -/
def State.keyEvent (s : State) (k : Key) (pressed : Bool) : State :=
  if s.halted then s else s.setKey k pressed

/-- `Snapshot`: the framebuffer as it stands between two steps (R215), of a halted core too (R210). -/
def State.snapshot (s : State) : FrameBuffer := s.fb

/-- `Stop` (R220). On a core that is halted already it has no effect (R207, log entry 5). -/
def State.stop (s : State) : State := if s.halted then s else { s with stopped := true }

/-- `LoadImage(bytes)`: the bytes at 0x200 and up; an image over 3584 bytes is refused and nothing is loaded (R231). -/
def loadImage (image : List Byte) (s : State) : Option State :=
  if image.length ≤ Config.maxImage then some (s.setMem (s.mem.writeAll Config.progBase image)) else none

/-- `Reset`, then `LoadImage` (R230, R231). What is not the machine's survives: the other agents' actions to come, and the
count of random samples (log entry 4). An image the loader refuses leaves the machine as `Reset` does. -/
def State.restart (s : State) (image : List Byte) : State :=
  let r := { State.reset with rndSamples := s.rndSamples, sched := s.sched }
  (loadImage image r).getD r

/-- The output `tone`: 1 while `ST != 0` and the core is not halted (R213). -/
def State.tone (s : State) : Bool := s.st != 0 && !s.halted

/-- The output `fault`, three bits (R38, R200). -/
def State.faultPort (s : State) : BitVec 3 := s.fault.code

end Sys2Proof.Machine
end

