-- ==== Sys2Proof/Machine/Alu.lean ====
section
/-! DEFINITION. Register and ALU instructions (spec/40_alu.md). None of them can fault. -/

namespace Sys2Proof.Machine

/-- `V[X] <- NN` (R101). -/
def execLdVxNN (x : Reg) (nn : Byte) (s : State) : Result := .next (s.setV x nn).advance

/-- `V[X] <- (V[X] + NN) mod 256`, no flag (R102). -/
def execAddVxNN (x : Reg) (nn : Byte) (s : State) : Result :=
  .next (s.setV x (sumByte (s.getV x) nn)).advance

/-- `V[X] <- V[Y]` (R103). -/
def execLdVxVy (x y : Reg) (s : State) : Result := .next (s.setV x (s.getV y)).advance

/-- `V[X] <- V[X] | V[Y]`, no flag (R104, decision D8). -/
def execOrVxVy (x y : Reg) (s : State) : Result := .next (s.setV x (s.getV x ||| s.getV y)).advance

/-- `V[X] <- V[X] & V[Y]`, no flag (R105, decision D8). -/
def execAndVxVy (x y : Reg) (s : State) : Result := .next (s.setV x (s.getV x &&& s.getV y)).advance

/-- `V[X] <- V[X] ^ V[Y]`, no flag (R106, decision D8). -/
def execXorVxVy (x y : Reg) (s : State) : Result := .next (s.setV x (s.getV x ^^^ s.getV y)).advance

/-- Both operands are read, then the result is written, then the flag (R107, R108, R110, decision D6). -/
def writeResultThenFlag (x : Reg) (result : Byte) (flag : Bool) (s : State) : Result :=
  .next ((s.setV x result).setFlag flag).advance

/-- `V[X] <- (V[X] + V[Y]) mod 256; VF <- carry` (R107). -/
def execAddVxVy (x y : Reg) (s : State) : Result :=
  writeResultThenFlag x (sumByte (s.getV x) (s.getV y)) (carryOut (s.getV x) (s.getV y)) s

/-- `V[X] <- (V[X] - V[Y]) mod 256; VF <- no borrow` (R108). -/
def execSubVxVy (x y : Reg) (s : State) : Result :=
  writeResultThenFlag x (differenceByte (s.getV x) (s.getV y)) (noBorrow (s.getV x) (s.getV y)) s

/-- `V[X] <- (V[Y] - V[X]) mod 256; VF <- no borrow` (R110). -/
def execSubnVxVy (x y : Reg) (s : State) : Result :=
  writeResultThenFlag x (differenceByte (s.getV y) (s.getV x)) (noBorrow (s.getV y) (s.getV x)) s

/-- `VF <- V[X][0]; V[X] <- V[X] >> 1`, the second statement reading the register after the first
(R109, decision D7). -/
def execShrVx (x _y : Reg) (s : State) : Result :=
  let t := s.setFlag (lowBit (s.getV x))
  .next (t.setV x (halfByte (t.getV x))).advance

/-- `VF <- V[X][7]; V[X] <- V[X] << 1`, the second statement reading the register after the first
(R111, decision D7). -/
def execShlVx (x _y : Reg) (s : State) : Result :=
  let t := s.setFlag (highBit (s.getV x))
  .next (t.setV x (doubleByte (t.getV x))).advance

/-- `r <- Rand8(); V[X] <- r & NN` (R112): the free byte is sampled once (R34, log entry 3). -/
def execRndVxNN (x : Reg) (nn : Byte) (s : State) : Result :=
  .next (s.sampled.setV x (Config.rndIn s.rndSamples &&& nn)).advance

end Sys2Proof.Machine
end

