-- ==== Sys2Proof/Machine/Control.lean ====
section
/-! DEFINITION. Control transfer and skips (spec/41_control.md). A target is written as it is and checked by the next
fetch (R120). -/

namespace Sys2Proof.Machine

/-- RET (R121): the new `pc` is exactly the stored value. -/
def execRet (s : State) : Result := finish s (popReturn s)

/-- CALL NNN (R122). -/
def execCallNNN (nnn : Imm12) (s : State) : Result :=
  finish s ((pushReturn s).map fun t => t.jump (zextAddr nnn))

/-- JP NNN (R123). -/
def execJpNNN (nnn : Imm12) (s : State) : Result := .next (s.jump (zextAddr nnn))

/-- JP Vx,NNN (R124): the register is the one the instruction names, not register 0. -/
def execJpVxNNN (x : Reg) (nnn : Imm12) (s : State) : Result := .next (s.jump (offsetTarget nnn (s.getV x)))

/-- SE Vx,NN (R125). -/
def execSeVxNN (x : Reg) (nn : Byte) (s : State) : Result := .next (s.skipIf (s.getV x == nn))

/-- SNE Vx,NN (R126). -/
def execSneVxNN (x : Reg) (nn : Byte) (s : State) : Result := .next (s.skipIf (s.getV x != nn))

/-- SE Vx,Vy (R127). -/
def execSeVxVy (x y : Reg) (s : State) : Result := .next (s.skipIf (s.getV x == s.getV y))

/-- SNE Vx,Vy (R128). -/
def execSneVxVy (x y : Reg) (s : State) : Result := .next (s.skipIf (s.getV x != s.getV y))

end Sys2Proof.Machine
end

