-- ==== Sys2Proof/Machine/Display.lean ====
section
/-! DEFINITION. Display instructions (spec/43_display.md). The sprite is drawn pixel by pixel, as R161 writes it; the closed
form of the result is a statement about this definition. -/

namespace Sys2Proof.Machine

/-- CLS: every pixel off, `VF` not written (R160). -/
def execCls (s : State) : Result := .next (s.setFB FrameBuffer.clear).advance

/-- A drawing in progress: the pixels, and whether a pixel went from on to off. -/
structure Canvas where
  fb : FrameBuffer
  hit : Bool
  deriving DecidableEq, Repr

/-- Toggle one pixel; one that was on is a collision (R161). -/
def Canvas.toggle (c : Canvas) (y : Fin 32) (x : Fin 64) : Canvas :=
  { fb := c.fb.toggle y x, hit := c.hit || c.fb.pixel y x }

/-- Column `col` of the sprite byte `b`: dropped past column 63, left alone where the sprite bit is 0 (R161). -/
def Canvas.drawColumn (b : Byte) (x0 : Nat) (y : Fin 32) (c : Canvas) (col : Nat) : Canvas :=
  if h : x0 + col < 64 then
    if spriteBit b col then c.toggle y ⟨x0 + col, h⟩ else c
  else c

/-- One sprite row at row `y`: dropped past row 31 (R161). -/
def Canvas.drawRow (b : Byte) (x0 y : Nat) (c : Canvas) : Canvas :=
  if h : y < 32 then (List.range 8).foldl (Canvas.drawColumn b x0 ⟨y, h⟩) c else c

/-- The sprite rows from row `y` down (R161). -/
def Canvas.drawRows (x0 : Nat) : Nat → List Byte → Canvas → Canvas
  | _, [], c => c
  | y, b :: bs, c => Canvas.drawRows x0 (y + 1) bs (Canvas.drawRow b x0 y c)

/-- DRW Vx,Vy,N (R161): the coordinates are read first, then all `N` bytes are bounds-checked, then `VF` is cleared and the
rows are drawn (decisions D9, D10). -/
def execDrwVxVyN (x y : Reg) (n : RowCount) (s : State) : Result :=
  let x0 := startColumn (s.getV x)
  let y0 := startRow (s.getV y)
  finish s ((readBytes s s.base n.val).map fun rows =>
    let c := Canvas.drawRows x0 y0 rows { fb := s.fb, hit := false }
    ((s.setFB c.fb).setFlag c.hit).advance)

end Sys2Proof.Machine
end

