-- ==== Sys2Proof/Machine/MemoryIndex.lean ====
section
/-! DEFINITION. Index register, loads and stores (spec/42_memory_index.md). `I` is left unmodified by every access (R141). -/

namespace Sys2Proof.Machine

/-- `I <- zext_16(NNN)` (R140). -/
def execLdINNN (nnn : Imm12) (s : State) : Result := .next (s.setI (zextAddr nnn)).advance

/-- `I <- (I + V[X]) mod 65536`, no flag (R142, decision D16). -/
def execAddIVx (x : Reg) (s : State) : Result := .next (s.setI (s.i + zextByte (s.getV x))).advance

/-- `I <- 0x050 + 5 * V[X]` (R144, decision D14). -/
def execLdFVx (x : Reg) (s : State) : Result := .next (s.setI (glyphAddr (s.getV x))).advance

/-- The three decimal digits of `V[X]` at `I`, `I + 1`, `I + 2` (R146). -/
def execLdBVx (x : Reg) (s : State) : Result :=
  finish s ((writeBytes s s.base (decimalDigits (s.getV x))).map State.advance)

/-- All sixteen registers to `I .. I + 15`, whatever `X` is (R150, decision D25). -/
def execLdIV (_x : Reg) (s : State) : Result :=
  finish s ((writeBytes s s.base s.v.toList).map State.advance)

/-- All sixteen registers from `I .. I + 15`, whatever `X` is (R152, decision D25). -/
def execLdVI (_x : Reg) (s : State) : Result :=
  finish s ((readBytes s s.base 16).map fun bs => (s.setAllV bs).advance)

end Sys2Proof.Machine
end

