-- ==== Sys2Proof/Machine/TimersKeypad.lean ====
section
/-! DEFINITION. Timer and keypad instructions (spec/44_timers_keypad.md). -/

namespace Sys2Proof.Machine

/-- `V[X] <- DT` (R170). -/
def execLdVxDT (x : Reg) (s : State) : Result := .next (s.setV x s.dt).advance

/-- `DT <- V[X]` (R171). -/
def execLdDTVx (x : Reg) (s : State) : Result := .next (s.setDT (s.getV x)).advance

/-- `ST <- V[X]` (R172). -/
def execLdSTVx (x : Reg) (s : State) : Result := .next (s.setST (s.getV x)).advance

/-- SKP Vx (R173). -/
def execSkpVx (x : Reg) (s : State) : Result := finish s ((readKey s (s.getV x)).map fun down => s.skipIf down)

/-- SKNP Vx (R174). -/
def execSknpVx (x : Reg) (s : State) : Result := finish s ((readKey s (s.getV x)).map fun down => s.skipIf (!down))

/-- LD Vx,K (R175): with no key pressed nothing changes, `pc` included, so the next step runs it again. -/
def execLdVxK (x : Reg) (s : State) : Result :=
  match lowestKey s.keys with
  | none => .next s
  | some k => .next (s.setV x (BitVec.ofNat 8 k.val)).advance

end Sys2Proof.Machine
end

