-- ==== Sys2Proof/Machine/Step.lean ====
section
/-! DEFINITION. One step of the machine (spec/00_scope.md R11, spec/10_state.md R36). -/

namespace Sys2Proof.Machine

/-- `Step`, the action of the CPU (R11): nothing on a halted core (R210), else the fetch bound, then the decoding, then the
instruction (R207). -/
def cpuStep (s : State) : Result :=
  if s.halted then .next s
  else
    match fetch s with
    | .error f => raise f s
    | .ok ir =>
      match decode ir with
      | .error _ => raise (.decodeError ir) s
      | .ok i => exec i s

/-- One atomic action of one agent (R36). -/
def perform (a : Action) (s : State) : Result :=
  match a with
  | .step => cpuStep s
  | .tick => .next s.tick
  | .keyEvent k pressed => .next (s.keyEvent k pressed)
  | .snapshot => .next s
  | .stop => .next s.stop
  | .restart image => .next (s.restart image)

/-- The next action happens: the head of `sched`, or the CPU's step where none is listed (R36, log entry 4). -/
def step (s : State) : Host.Outcome State Fault Refusal :=
  match s.sched with
  | [] => cpuStep s
  | a :: rest => perform a { s with sched := rest }

/-- Where `withFetchWord` places a word: at `pc`, or at the program base where no fetch at `pc` can succeed (R53). -/
def State.fetchPlace (s : State) : Word :=
  if s.pc.toNat < 4095 then s.pc else BitVec.ofNat 16 Config.progBase

/-- `s` with the table word `w` stored where `step` fetches its next instruction, so that the very next step runs it: the
core is running, the CPU moves next, and the word stands at `pc`, high byte first (log entries 6 and 7). -/
def State.withFetchWord (s : State) (nbits w : Nat) : State :=
  { s with
    mem := s.mem.writeAll s.fetchPlace.toNat [highByte (tableWord nbits w), lowByte (tableWord nbits w)]
    pc := s.fetchPlace
    fault := .noFault
    faultInfo := 0
    stopped := false
    sched := match s.sched with
      | [] => []
      | a :: rest => .step :: a :: rest }

end Sys2Proof.Machine
end

