-- ==== Sys2Proof/Safety.lean ====
section
/-! DEFINITION. What counts as a safe state and a safe run, and the invariant of the machine, in the terms the claims use.
A state with `FAULT != 0` has gone wrong (spec/60_exceptions.md R210). -/

namespace Sys2Proof.Machine

/-- No fault has ended the run (R210). -/
def State.Safe (s : State) : Prop := s.fault = .noFault

/-- `k` steps from `s` are all answered by a next state, and none of the states passed has gone wrong. -/
def SafeRun (s : State) (k : Nat) : Prop :=
  ∀ j, j ≤ k → ∃ t, Host.Core.run Sys2Proof.core j s = .next t ∧ State.Safe t

/-- The latch agrees with the machine it stands in (R200, R208): a fault leaves everything else as it was before the step,
so what it recorded can be read back from the state. -/
def State.LatchSound (s : State) : Prop :=
  match s.fault with
  | .noFault => s.faultInfo = 0
  | .decodeError => fetch s = .ok s.faultInfo ∧ ∃ e, decode s.faultInfo = .error e
  | .stackOverflow => s.faultInfo = s.pc ∧ s.sp.val = 16
  | .outOfBoundsAccess => 4096 ≤ s.faultInfo.toNat
  | .stackUnderflow => s.faultInfo = s.pc ∧ s.sp.val = 0
  | .keyIndexError => 16 ≤ s.faultInfo.toNat ∧ s.faultInfo.toNat ≤ 255

/-- The invariant every action of every agent keeps: memory is in its canonical form (R50; log entry 1), `pc` is at most
`0x10FE` (R24), a call-stack entry is at most 4096 (R122), and the latch is sound (R200, R208). -/
structure State.Inv (s : State) : Prop where
  mem_wf : s.mem.wf
  pc_le : s.pc.toNat ≤ 0x10FE
  stack_le : ∀ j : Fin 16, (s.stack[j.val]).toNat ≤ 4096
  latch : s.LatchSound

end Sys2Proof.Machine
end

