-- ==== Sys2Proof/Laws/State.lean ====
section
/-! SUPPORT. One lemma per field per update of the state, true by rfl, so that no later proof unfolds a record update. -/

namespace Sys2Proof.Machine

/-! ## `State.setV` -/

@[simp] theorem State.setV_mem (s : State) (r : Reg) (b : Byte) : (s.setV r b).mem = s.mem := rfl
@[simp] theorem State.setV_v (s : State) (r : Reg) (b : Byte) : (s.setV r b).v = s.v.set r.val b := rfl
@[simp] theorem State.setV_i (s : State) (r : Reg) (b : Byte) : (s.setV r b).i = s.i := rfl
@[simp] theorem State.setV_pc (s : State) (r : Reg) (b : Byte) : (s.setV r b).pc = s.pc := rfl
@[simp] theorem State.setV_stack (s : State) (r : Reg) (b : Byte) : (s.setV r b).stack = s.stack := rfl
@[simp] theorem State.setV_sp (s : State) (r : Reg) (b : Byte) : (s.setV r b).sp = s.sp := rfl
@[simp] theorem State.setV_dt (s : State) (r : Reg) (b : Byte) : (s.setV r b).dt = s.dt := rfl
@[simp] theorem State.setV_st (s : State) (r : Reg) (b : Byte) : (s.setV r b).st = s.st := rfl
@[simp] theorem State.setV_keys (s : State) (r : Reg) (b : Byte) : (s.setV r b).keys = s.keys := rfl
@[simp] theorem State.setV_fb (s : State) (r : Reg) (b : Byte) : (s.setV r b).fb = s.fb := rfl
@[simp] theorem State.setV_fault (s : State) (r : Reg) (b : Byte) : (s.setV r b).fault = s.fault := rfl
@[simp] theorem State.setV_faultInfo (s : State) (r : Reg) (b : Byte) : (s.setV r b).faultInfo = s.faultInfo := rfl
@[simp] theorem State.setV_stopped (s : State) (r : Reg) (b : Byte) : (s.setV r b).stopped = s.stopped := rfl
@[simp] theorem State.setV_rndSamples (s : State) (r : Reg) (b : Byte) : (s.setV r b).rndSamples = s.rndSamples := rfl
@[simp] theorem State.setV_sched (s : State) (r : Reg) (b : Byte) : (s.setV r b).sched = s.sched := rfl
@[simp] theorem State.setV_base (s : State) (r : Reg) (b : Byte) : (s.setV r b).base = s.base := rfl

/-! ## `State.setFlag` -/

@[simp] theorem State.setFlag_mem (s : State) (f : Bool) : (s.setFlag f).mem = s.mem := rfl
@[simp] theorem State.setFlag_v (s : State) (f : Bool) : (s.setFlag f).v = s.v.set VF.val (flagByte f) := rfl
@[simp] theorem State.setFlag_i (s : State) (f : Bool) : (s.setFlag f).i = s.i := rfl
@[simp] theorem State.setFlag_pc (s : State) (f : Bool) : (s.setFlag f).pc = s.pc := rfl
@[simp] theorem State.setFlag_stack (s : State) (f : Bool) : (s.setFlag f).stack = s.stack := rfl
@[simp] theorem State.setFlag_sp (s : State) (f : Bool) : (s.setFlag f).sp = s.sp := rfl
@[simp] theorem State.setFlag_dt (s : State) (f : Bool) : (s.setFlag f).dt = s.dt := rfl
@[simp] theorem State.setFlag_st (s : State) (f : Bool) : (s.setFlag f).st = s.st := rfl
@[simp] theorem State.setFlag_keys (s : State) (f : Bool) : (s.setFlag f).keys = s.keys := rfl
@[simp] theorem State.setFlag_fb (s : State) (f : Bool) : (s.setFlag f).fb = s.fb := rfl
@[simp] theorem State.setFlag_fault (s : State) (f : Bool) : (s.setFlag f).fault = s.fault := rfl
@[simp] theorem State.setFlag_faultInfo (s : State) (f : Bool) : (s.setFlag f).faultInfo = s.faultInfo := rfl
@[simp] theorem State.setFlag_stopped (s : State) (f : Bool) : (s.setFlag f).stopped = s.stopped := rfl
@[simp] theorem State.setFlag_rndSamples (s : State) (f : Bool) : (s.setFlag f).rndSamples = s.rndSamples := rfl
@[simp] theorem State.setFlag_sched (s : State) (f : Bool) : (s.setFlag f).sched = s.sched := rfl
@[simp] theorem State.setFlag_base (s : State) (f : Bool) : (s.setFlag f).base = s.base := rfl

/-! ## `State.setAllV` -/

@[simp] theorem State.setAllV_mem (s : State) (bs : List Byte) : (s.setAllV bs).mem = s.mem := rfl
@[simp] theorem State.setAllV_v (s : State) (bs : List Byte) : (s.setAllV bs).v = Vector.ofFn fun r : Fin 16 => bs.getD r.val 0 := rfl
@[simp] theorem State.setAllV_i (s : State) (bs : List Byte) : (s.setAllV bs).i = s.i := rfl
@[simp] theorem State.setAllV_pc (s : State) (bs : List Byte) : (s.setAllV bs).pc = s.pc := rfl
@[simp] theorem State.setAllV_stack (s : State) (bs : List Byte) : (s.setAllV bs).stack = s.stack := rfl
@[simp] theorem State.setAllV_sp (s : State) (bs : List Byte) : (s.setAllV bs).sp = s.sp := rfl
@[simp] theorem State.setAllV_dt (s : State) (bs : List Byte) : (s.setAllV bs).dt = s.dt := rfl
@[simp] theorem State.setAllV_st (s : State) (bs : List Byte) : (s.setAllV bs).st = s.st := rfl
@[simp] theorem State.setAllV_keys (s : State) (bs : List Byte) : (s.setAllV bs).keys = s.keys := rfl
@[simp] theorem State.setAllV_fb (s : State) (bs : List Byte) : (s.setAllV bs).fb = s.fb := rfl
@[simp] theorem State.setAllV_fault (s : State) (bs : List Byte) : (s.setAllV bs).fault = s.fault := rfl
@[simp] theorem State.setAllV_faultInfo (s : State) (bs : List Byte) : (s.setAllV bs).faultInfo = s.faultInfo := rfl
@[simp] theorem State.setAllV_stopped (s : State) (bs : List Byte) : (s.setAllV bs).stopped = s.stopped := rfl
@[simp] theorem State.setAllV_rndSamples (s : State) (bs : List Byte) : (s.setAllV bs).rndSamples = s.rndSamples := rfl
@[simp] theorem State.setAllV_sched (s : State) (bs : List Byte) : (s.setAllV bs).sched = s.sched := rfl
@[simp] theorem State.setAllV_base (s : State) (bs : List Byte) : (s.setAllV bs).base = s.base := rfl

/-! ## `State.setI` -/

@[simp] theorem State.setI_mem (s : State) (w : Word) : (s.setI w).mem = s.mem := rfl
@[simp] theorem State.setI_v (s : State) (w : Word) : (s.setI w).v = s.v := rfl
@[simp] theorem State.setI_i (s : State) (w : Word) : (s.setI w).i = w := rfl
@[simp] theorem State.setI_pc (s : State) (w : Word) : (s.setI w).pc = s.pc := rfl
@[simp] theorem State.setI_stack (s : State) (w : Word) : (s.setI w).stack = s.stack := rfl
@[simp] theorem State.setI_sp (s : State) (w : Word) : (s.setI w).sp = s.sp := rfl
@[simp] theorem State.setI_dt (s : State) (w : Word) : (s.setI w).dt = s.dt := rfl
@[simp] theorem State.setI_st (s : State) (w : Word) : (s.setI w).st = s.st := rfl
@[simp] theorem State.setI_keys (s : State) (w : Word) : (s.setI w).keys = s.keys := rfl
@[simp] theorem State.setI_fb (s : State) (w : Word) : (s.setI w).fb = s.fb := rfl
@[simp] theorem State.setI_fault (s : State) (w : Word) : (s.setI w).fault = s.fault := rfl
@[simp] theorem State.setI_faultInfo (s : State) (w : Word) : (s.setI w).faultInfo = s.faultInfo := rfl
@[simp] theorem State.setI_stopped (s : State) (w : Word) : (s.setI w).stopped = s.stopped := rfl
@[simp] theorem State.setI_rndSamples (s : State) (w : Word) : (s.setI w).rndSamples = s.rndSamples := rfl
@[simp] theorem State.setI_sched (s : State) (w : Word) : (s.setI w).sched = s.sched := rfl
@[simp] theorem State.setI_getV (s : State) (w : Word) (q : Reg) : (s.setI w).getV q = s.getV q := rfl

/-! ## `State.jump` -/

@[simp] theorem State.jump_mem (s : State) (w : Word) : (s.jump w).mem = s.mem := rfl
@[simp] theorem State.jump_v (s : State) (w : Word) : (s.jump w).v = s.v := rfl
@[simp] theorem State.jump_i (s : State) (w : Word) : (s.jump w).i = s.i := rfl
@[simp] theorem State.jump_pc (s : State) (w : Word) : (s.jump w).pc = w := rfl
@[simp] theorem State.jump_stack (s : State) (w : Word) : (s.jump w).stack = s.stack := rfl
@[simp] theorem State.jump_sp (s : State) (w : Word) : (s.jump w).sp = s.sp := rfl
@[simp] theorem State.jump_dt (s : State) (w : Word) : (s.jump w).dt = s.dt := rfl
@[simp] theorem State.jump_st (s : State) (w : Word) : (s.jump w).st = s.st := rfl
@[simp] theorem State.jump_keys (s : State) (w : Word) : (s.jump w).keys = s.keys := rfl
@[simp] theorem State.jump_fb (s : State) (w : Word) : (s.jump w).fb = s.fb := rfl
@[simp] theorem State.jump_fault (s : State) (w : Word) : (s.jump w).fault = s.fault := rfl
@[simp] theorem State.jump_faultInfo (s : State) (w : Word) : (s.jump w).faultInfo = s.faultInfo := rfl
@[simp] theorem State.jump_stopped (s : State) (w : Word) : (s.jump w).stopped = s.stopped := rfl
@[simp] theorem State.jump_rndSamples (s : State) (w : Word) : (s.jump w).rndSamples = s.rndSamples := rfl
@[simp] theorem State.jump_sched (s : State) (w : Word) : (s.jump w).sched = s.sched := rfl
@[simp] theorem State.jump_getV (s : State) (w : Word) (q : Reg) : (s.jump w).getV q = s.getV q := rfl
@[simp] theorem State.jump_base (s : State) (w : Word) : (s.jump w).base = s.base := rfl

/-! ## `State.advance` -/

@[simp] theorem State.advance_mem (s : State) : s.advance.mem = s.mem := rfl
@[simp] theorem State.advance_v (s : State) : s.advance.v = s.v := rfl
@[simp] theorem State.advance_i (s : State) : s.advance.i = s.i := rfl
@[simp] theorem State.advance_pc (s : State) : s.advance.pc = s.pc + 2 := rfl
@[simp] theorem State.advance_stack (s : State) : s.advance.stack = s.stack := rfl
@[simp] theorem State.advance_sp (s : State) : s.advance.sp = s.sp := rfl
@[simp] theorem State.advance_dt (s : State) : s.advance.dt = s.dt := rfl
@[simp] theorem State.advance_st (s : State) : s.advance.st = s.st := rfl
@[simp] theorem State.advance_keys (s : State) : s.advance.keys = s.keys := rfl
@[simp] theorem State.advance_fb (s : State) : s.advance.fb = s.fb := rfl
@[simp] theorem State.advance_fault (s : State) : s.advance.fault = s.fault := rfl
@[simp] theorem State.advance_faultInfo (s : State) : s.advance.faultInfo = s.faultInfo := rfl
@[simp] theorem State.advance_stopped (s : State) : s.advance.stopped = s.stopped := rfl
@[simp] theorem State.advance_rndSamples (s : State) : s.advance.rndSamples = s.rndSamples := rfl
@[simp] theorem State.advance_sched (s : State) : s.advance.sched = s.sched := rfl
@[simp] theorem State.advance_getV (s : State) (q : Reg) : s.advance.getV q = s.getV q := rfl
@[simp] theorem State.advance_base (s : State) : s.advance.base = s.base := rfl

/-! ## `State.skipIf` -/

@[simp] theorem State.skipIf_mem (s : State) (c : Bool) : (s.skipIf c).mem = s.mem := rfl
@[simp] theorem State.skipIf_v (s : State) (c : Bool) : (s.skipIf c).v = s.v := rfl
@[simp] theorem State.skipIf_i (s : State) (c : Bool) : (s.skipIf c).i = s.i := rfl
@[simp] theorem State.skipIf_pc (s : State) (c : Bool) : (s.skipIf c).pc = s.pc + if c then 4 else 2 := rfl
@[simp] theorem State.skipIf_stack (s : State) (c : Bool) : (s.skipIf c).stack = s.stack := rfl
@[simp] theorem State.skipIf_sp (s : State) (c : Bool) : (s.skipIf c).sp = s.sp := rfl
@[simp] theorem State.skipIf_dt (s : State) (c : Bool) : (s.skipIf c).dt = s.dt := rfl
@[simp] theorem State.skipIf_st (s : State) (c : Bool) : (s.skipIf c).st = s.st := rfl
@[simp] theorem State.skipIf_keys (s : State) (c : Bool) : (s.skipIf c).keys = s.keys := rfl
@[simp] theorem State.skipIf_fb (s : State) (c : Bool) : (s.skipIf c).fb = s.fb := rfl
@[simp] theorem State.skipIf_fault (s : State) (c : Bool) : (s.skipIf c).fault = s.fault := rfl
@[simp] theorem State.skipIf_faultInfo (s : State) (c : Bool) : (s.skipIf c).faultInfo = s.faultInfo := rfl
@[simp] theorem State.skipIf_stopped (s : State) (c : Bool) : (s.skipIf c).stopped = s.stopped := rfl
@[simp] theorem State.skipIf_rndSamples (s : State) (c : Bool) : (s.skipIf c).rndSamples = s.rndSamples := rfl
@[simp] theorem State.skipIf_sched (s : State) (c : Bool) : (s.skipIf c).sched = s.sched := rfl
@[simp] theorem State.skipIf_getV (s : State) (c : Bool) (q : Reg) : (s.skipIf c).getV q = s.getV q := rfl
@[simp] theorem State.skipIf_base (s : State) (c : Bool) : (s.skipIf c).base = s.base := rfl

/-! ## `State.setDT` -/

@[simp] theorem State.setDT_mem (s : State) (b : Byte) : (s.setDT b).mem = s.mem := rfl
@[simp] theorem State.setDT_v (s : State) (b : Byte) : (s.setDT b).v = s.v := rfl
@[simp] theorem State.setDT_i (s : State) (b : Byte) : (s.setDT b).i = s.i := rfl
@[simp] theorem State.setDT_pc (s : State) (b : Byte) : (s.setDT b).pc = s.pc := rfl
@[simp] theorem State.setDT_stack (s : State) (b : Byte) : (s.setDT b).stack = s.stack := rfl
@[simp] theorem State.setDT_sp (s : State) (b : Byte) : (s.setDT b).sp = s.sp := rfl
@[simp] theorem State.setDT_dt (s : State) (b : Byte) : (s.setDT b).dt = b := rfl
@[simp] theorem State.setDT_st (s : State) (b : Byte) : (s.setDT b).st = s.st := rfl
@[simp] theorem State.setDT_keys (s : State) (b : Byte) : (s.setDT b).keys = s.keys := rfl
@[simp] theorem State.setDT_fb (s : State) (b : Byte) : (s.setDT b).fb = s.fb := rfl
@[simp] theorem State.setDT_fault (s : State) (b : Byte) : (s.setDT b).fault = s.fault := rfl
@[simp] theorem State.setDT_faultInfo (s : State) (b : Byte) : (s.setDT b).faultInfo = s.faultInfo := rfl
@[simp] theorem State.setDT_stopped (s : State) (b : Byte) : (s.setDT b).stopped = s.stopped := rfl
@[simp] theorem State.setDT_rndSamples (s : State) (b : Byte) : (s.setDT b).rndSamples = s.rndSamples := rfl
@[simp] theorem State.setDT_sched (s : State) (b : Byte) : (s.setDT b).sched = s.sched := rfl
@[simp] theorem State.setDT_getV (s : State) (b : Byte) (q : Reg) : (s.setDT b).getV q = s.getV q := rfl
@[simp] theorem State.setDT_base (s : State) (b : Byte) : (s.setDT b).base = s.base := rfl

/-! ## `State.setST` -/

@[simp] theorem State.setST_mem (s : State) (b : Byte) : (s.setST b).mem = s.mem := rfl
@[simp] theorem State.setST_v (s : State) (b : Byte) : (s.setST b).v = s.v := rfl
@[simp] theorem State.setST_i (s : State) (b : Byte) : (s.setST b).i = s.i := rfl
@[simp] theorem State.setST_pc (s : State) (b : Byte) : (s.setST b).pc = s.pc := rfl
@[simp] theorem State.setST_stack (s : State) (b : Byte) : (s.setST b).stack = s.stack := rfl
@[simp] theorem State.setST_sp (s : State) (b : Byte) : (s.setST b).sp = s.sp := rfl
@[simp] theorem State.setST_dt (s : State) (b : Byte) : (s.setST b).dt = s.dt := rfl
@[simp] theorem State.setST_st (s : State) (b : Byte) : (s.setST b).st = b := rfl
@[simp] theorem State.setST_keys (s : State) (b : Byte) : (s.setST b).keys = s.keys := rfl
@[simp] theorem State.setST_fb (s : State) (b : Byte) : (s.setST b).fb = s.fb := rfl
@[simp] theorem State.setST_fault (s : State) (b : Byte) : (s.setST b).fault = s.fault := rfl
@[simp] theorem State.setST_faultInfo (s : State) (b : Byte) : (s.setST b).faultInfo = s.faultInfo := rfl
@[simp] theorem State.setST_stopped (s : State) (b : Byte) : (s.setST b).stopped = s.stopped := rfl
@[simp] theorem State.setST_rndSamples (s : State) (b : Byte) : (s.setST b).rndSamples = s.rndSamples := rfl
@[simp] theorem State.setST_sched (s : State) (b : Byte) : (s.setST b).sched = s.sched := rfl
@[simp] theorem State.setST_getV (s : State) (b : Byte) (q : Reg) : (s.setST b).getV q = s.getV q := rfl
@[simp] theorem State.setST_base (s : State) (b : Byte) : (s.setST b).base = s.base := rfl

/-! ## `State.setFB` -/

@[simp] theorem State.setFB_mem (s : State) (f : FrameBuffer) : (s.setFB f).mem = s.mem := rfl
@[simp] theorem State.setFB_v (s : State) (f : FrameBuffer) : (s.setFB f).v = s.v := rfl
@[simp] theorem State.setFB_i (s : State) (f : FrameBuffer) : (s.setFB f).i = s.i := rfl
@[simp] theorem State.setFB_pc (s : State) (f : FrameBuffer) : (s.setFB f).pc = s.pc := rfl
@[simp] theorem State.setFB_stack (s : State) (f : FrameBuffer) : (s.setFB f).stack = s.stack := rfl
@[simp] theorem State.setFB_sp (s : State) (f : FrameBuffer) : (s.setFB f).sp = s.sp := rfl
@[simp] theorem State.setFB_dt (s : State) (f : FrameBuffer) : (s.setFB f).dt = s.dt := rfl
@[simp] theorem State.setFB_st (s : State) (f : FrameBuffer) : (s.setFB f).st = s.st := rfl
@[simp] theorem State.setFB_keys (s : State) (f : FrameBuffer) : (s.setFB f).keys = s.keys := rfl
@[simp] theorem State.setFB_fb (s : State) (f : FrameBuffer) : (s.setFB f).fb = f := rfl
@[simp] theorem State.setFB_fault (s : State) (f : FrameBuffer) : (s.setFB f).fault = s.fault := rfl
@[simp] theorem State.setFB_faultInfo (s : State) (f : FrameBuffer) : (s.setFB f).faultInfo = s.faultInfo := rfl
@[simp] theorem State.setFB_stopped (s : State) (f : FrameBuffer) : (s.setFB f).stopped = s.stopped := rfl
@[simp] theorem State.setFB_rndSamples (s : State) (f : FrameBuffer) : (s.setFB f).rndSamples = s.rndSamples := rfl
@[simp] theorem State.setFB_sched (s : State) (f : FrameBuffer) : (s.setFB f).sched = s.sched := rfl
@[simp] theorem State.setFB_getV (s : State) (f : FrameBuffer) (q : Reg) : (s.setFB f).getV q = s.getV q := rfl
@[simp] theorem State.setFB_base (s : State) (f : FrameBuffer) : (s.setFB f).base = s.base := rfl

/-! ## `State.setMem` -/

@[simp] theorem State.setMem_mem (s : State) (m : Memory) : (s.setMem m).mem = m := rfl
@[simp] theorem State.setMem_v (s : State) (m : Memory) : (s.setMem m).v = s.v := rfl
@[simp] theorem State.setMem_i (s : State) (m : Memory) : (s.setMem m).i = s.i := rfl
@[simp] theorem State.setMem_pc (s : State) (m : Memory) : (s.setMem m).pc = s.pc := rfl
@[simp] theorem State.setMem_stack (s : State) (m : Memory) : (s.setMem m).stack = s.stack := rfl
@[simp] theorem State.setMem_sp (s : State) (m : Memory) : (s.setMem m).sp = s.sp := rfl
@[simp] theorem State.setMem_dt (s : State) (m : Memory) : (s.setMem m).dt = s.dt := rfl
@[simp] theorem State.setMem_st (s : State) (m : Memory) : (s.setMem m).st = s.st := rfl
@[simp] theorem State.setMem_keys (s : State) (m : Memory) : (s.setMem m).keys = s.keys := rfl
@[simp] theorem State.setMem_fb (s : State) (m : Memory) : (s.setMem m).fb = s.fb := rfl
@[simp] theorem State.setMem_fault (s : State) (m : Memory) : (s.setMem m).fault = s.fault := rfl
@[simp] theorem State.setMem_faultInfo (s : State) (m : Memory) : (s.setMem m).faultInfo = s.faultInfo := rfl
@[simp] theorem State.setMem_stopped (s : State) (m : Memory) : (s.setMem m).stopped = s.stopped := rfl
@[simp] theorem State.setMem_rndSamples (s : State) (m : Memory) : (s.setMem m).rndSamples = s.rndSamples := rfl
@[simp] theorem State.setMem_sched (s : State) (m : Memory) : (s.setMem m).sched = s.sched := rfl
@[simp] theorem State.setMem_getV (s : State) (m : Memory) (q : Reg) : (s.setMem m).getV q = s.getV q := rfl
@[simp] theorem State.setMem_base (s : State) (m : Memory) : (s.setMem m).base = s.base := rfl

/-! ## `State.sampled` -/

@[simp] theorem State.sampled_mem (s : State) : s.sampled.mem = s.mem := rfl
@[simp] theorem State.sampled_v (s : State) : s.sampled.v = s.v := rfl
@[simp] theorem State.sampled_i (s : State) : s.sampled.i = s.i := rfl
@[simp] theorem State.sampled_pc (s : State) : s.sampled.pc = s.pc := rfl
@[simp] theorem State.sampled_stack (s : State) : s.sampled.stack = s.stack := rfl
@[simp] theorem State.sampled_sp (s : State) : s.sampled.sp = s.sp := rfl
@[simp] theorem State.sampled_dt (s : State) : s.sampled.dt = s.dt := rfl
@[simp] theorem State.sampled_st (s : State) : s.sampled.st = s.st := rfl
@[simp] theorem State.sampled_keys (s : State) : s.sampled.keys = s.keys := rfl
@[simp] theorem State.sampled_fb (s : State) : s.sampled.fb = s.fb := rfl
@[simp] theorem State.sampled_fault (s : State) : s.sampled.fault = s.fault := rfl
@[simp] theorem State.sampled_faultInfo (s : State) : s.sampled.faultInfo = s.faultInfo := rfl
@[simp] theorem State.sampled_stopped (s : State) : s.sampled.stopped = s.stopped := rfl
@[simp] theorem State.sampled_rndSamples (s : State) : s.sampled.rndSamples = s.rndSamples + 1 := rfl
@[simp] theorem State.sampled_sched (s : State) : s.sampled.sched = s.sched := rfl
@[simp] theorem State.sampled_getV (s : State) (q : Reg) : s.sampled.getV q = s.getV q := rfl
@[simp] theorem State.sampled_base (s : State) : s.sampled.base = s.base := rfl

/-! ## `State.setKey` -/

@[simp] theorem State.setKey_mem (s : State) (k : Key) (p : Bool) : (s.setKey k p).mem = s.mem := rfl
@[simp] theorem State.setKey_v (s : State) (k : Key) (p : Bool) : (s.setKey k p).v = s.v := rfl
@[simp] theorem State.setKey_i (s : State) (k : Key) (p : Bool) : (s.setKey k p).i = s.i := rfl
@[simp] theorem State.setKey_pc (s : State) (k : Key) (p : Bool) : (s.setKey k p).pc = s.pc := rfl
@[simp] theorem State.setKey_stack (s : State) (k : Key) (p : Bool) : (s.setKey k p).stack = s.stack := rfl
@[simp] theorem State.setKey_sp (s : State) (k : Key) (p : Bool) : (s.setKey k p).sp = s.sp := rfl
@[simp] theorem State.setKey_dt (s : State) (k : Key) (p : Bool) : (s.setKey k p).dt = s.dt := rfl
@[simp] theorem State.setKey_st (s : State) (k : Key) (p : Bool) : (s.setKey k p).st = s.st := rfl
@[simp] theorem State.setKey_keys (s : State) (k : Key) (p : Bool) : (s.setKey k p).keys = s.keys.set k.val p := rfl
@[simp] theorem State.setKey_fb (s : State) (k : Key) (p : Bool) : (s.setKey k p).fb = s.fb := rfl
@[simp] theorem State.setKey_fault (s : State) (k : Key) (p : Bool) : (s.setKey k p).fault = s.fault := rfl
@[simp] theorem State.setKey_faultInfo (s : State) (k : Key) (p : Bool) : (s.setKey k p).faultInfo = s.faultInfo := rfl
@[simp] theorem State.setKey_stopped (s : State) (k : Key) (p : Bool) : (s.setKey k p).stopped = s.stopped := rfl
@[simp] theorem State.setKey_rndSamples (s : State) (k : Key) (p : Bool) : (s.setKey k p).rndSamples = s.rndSamples := rfl
@[simp] theorem State.setKey_sched (s : State) (k : Key) (p : Bool) : (s.setKey k p).sched = s.sched := rfl
@[simp] theorem State.setKey_getV (s : State) (k : Key) (p : Bool) (q : Reg) : (s.setKey k p).getV q = s.getV q := rfl
@[simp] theorem State.setKey_base (s : State) (k : Key) (p : Bool) : (s.setKey k p).base = s.base := rfl

/-! ## `State.latch` -/

@[simp] theorem State.latch_mem (s : State) (f : Fault) : (s.latch f).mem = s.mem := rfl
@[simp] theorem State.latch_v (s : State) (f : Fault) : (s.latch f).v = s.v := rfl
@[simp] theorem State.latch_i (s : State) (f : Fault) : (s.latch f).i = s.i := rfl
@[simp] theorem State.latch_pc (s : State) (f : Fault) : (s.latch f).pc = s.pc := rfl
@[simp] theorem State.latch_stack (s : State) (f : Fault) : (s.latch f).stack = s.stack := rfl
@[simp] theorem State.latch_sp (s : State) (f : Fault) : (s.latch f).sp = s.sp := rfl
@[simp] theorem State.latch_dt (s : State) (f : Fault) : (s.latch f).dt = s.dt := rfl
@[simp] theorem State.latch_st (s : State) (f : Fault) : (s.latch f).st = s.st := rfl
@[simp] theorem State.latch_keys (s : State) (f : Fault) : (s.latch f).keys = s.keys := rfl
@[simp] theorem State.latch_fb (s : State) (f : Fault) : (s.latch f).fb = s.fb := rfl
@[simp] theorem State.latch_fault (s : State) (f : Fault) : (s.latch f).fault = f.kind := rfl
@[simp] theorem State.latch_faultInfo (s : State) (f : Fault) : (s.latch f).faultInfo = f.info := rfl
@[simp] theorem State.latch_stopped (s : State) (f : Fault) : (s.latch f).stopped = s.stopped := rfl
@[simp] theorem State.latch_rndSamples (s : State) (f : Fault) : (s.latch f).rndSamples = s.rndSamples := rfl
@[simp] theorem State.latch_sched (s : State) (f : Fault) : (s.latch f).sched = s.sched := rfl
@[simp] theorem State.latch_getV (s : State) (f : Fault) (q : Reg) : (s.latch f).getV q = s.getV q := rfl
@[simp] theorem State.latch_base (s : State) (f : Fault) : (s.latch f).base = s.base := rfl

end Sys2Proof.Machine
end

