-- ==== Sys2Proof/Laws/Decode.lean ====
section
/-! SUPPORT. The fields of a word as quotients and remainders, the fields of a word that a format put together, and the two
bytes of a word. -/

namespace Sys2Proof

/-! ## Fields as numbers (R71) -/

theorem Field.op_toNat (w : Word) : (Field.op w).toNat = w.toNat / 4096 := by
  have := w.isLt
  simp only [Field.op, BitVec.extractLsb'_toNat, Nat.shiftRight_eq_div_pow]
  omega

theorem Field.x_val (w : Word) : (Field.x w).val = w.toNat / 256 % 16 := by
  simp only [Field.x, BitVec.val_toFin, BitVec.extractLsb'_toNat, Nat.shiftRight_eq_div_pow]

theorem Field.y_val (w : Word) : (Field.y w).val = w.toNat / 16 % 16 := by
  simp only [Field.y, BitVec.val_toFin, BitVec.extractLsb'_toNat, Nat.shiftRight_eq_div_pow]

theorem Field.nBits_toNat (w : Word) : (Field.nBits w).toNat = w.toNat % 16 := by
  simp only [Field.nBits, BitVec.extractLsb'_toNat, Nat.shiftRight_eq_div_pow]
  omega

theorem Field.n_val (w : Word) : (Field.n w).val = w.toNat % 16 := by
  simp only [Field.n, BitVec.val_toFin, Field.nBits_toNat]

theorem Field.nn_toNat (w : Word) : (Field.nn w).toNat = w.toNat % 256 := by
  simp only [Field.nn, BitVec.extractLsb'_toNat, Nat.shiftRight_eq_div_pow]
  omega

theorem Field.nnn_toNat (w : Word) : (Field.nnn w).toNat = w.toNat % 4096 := by
  simp only [Field.nnn, BitVec.extractLsb'_toNat, Nat.shiftRight_eq_div_pow]
  omega

theorem Instr.jumpRegister_val (nnn : Imm12) : (Instr.jumpRegister nnn).val = nnn.toNat / 256 := by
  have := nnn.isLt
  simp only [Instr.jumpRegister, BitVec.val_toFin, BitVec.extractLsb'_toNat, Nat.shiftRight_eq_div_pow]
  omega

/-! ## Formats as numbers (R72) -/

theorem append_toNat {m n : Nat} (a : BitVec m) (b : BitVec n) : (a ++ b).toNat = a.toNat * 2 ^ n + b.toNat := by
  rw [BitVec.toNat_append, ← Nat.shiftLeft_add_eq_or_of_lt b.isLt, Nat.shiftLeft_eq]

theorem formatA_toNat (op : BitVec 4) (nnn : Imm12) : (formatA op nnn).toNat = op.toNat * 4096 + nnn.toNat :=
  append_toNat op nnn

theorem formatXB_toNat (op : BitVec 4) (x : Reg) (nn : Byte) :
    (formatXB op x nn).toNat = op.toNat * 4096 + x.val * 256 + nn.toNat := by
  have h := append_toNat (BitVec.ofFin (w := 4) x) nn
  have h2 : (formatXB op x nn).toNat = op.toNat * 4096 + (BitVec.ofFin (w := 4) x ++ nn : BitVec 12).toNat :=
    append_toNat op _
  rw [h2, Nat.add_assoc]
  exact congrArg _ h

theorem formatXY_toNat (op : BitVec 4) (x y : Reg) (n : BitVec 4) :
    (formatXY op x y n).toNat = op.toNat * 4096 + x.val * 256 + y.val * 16 + n.toNat := by
  have h : (BitVec.ofFin (w := 4) y ++ n : BitVec 8).toNat = y.val * 16 + n.toNat :=
    append_toNat (BitVec.ofFin (w := 4) y) n
  have h2 : (formatXY op x y n).toNat = _ := formatXB_toNat op x (BitVec.ofFin (w := 4) y ++ n : BitVec 8)
  rw [h2, h]
  omega

/-! ## The fields of a formatted word -/

@[simp] theorem Field.op_formatA (op : BitVec 4) (nnn : Imm12) : Field.op (formatA op nnn) = op := by
  apply BitVec.eq_of_toNat_eq
  rw [Field.op_toNat, formatA_toNat]
  omega

@[simp] theorem Field.nnn_formatA (op : BitVec 4) (nnn : Imm12) : Field.nnn (formatA op nnn) = nnn := by
  apply BitVec.eq_of_toNat_eq
  rw [Field.nnn_toNat, formatA_toNat]
  omega

@[simp] theorem Field.x_formatA (op : BitVec 4) (nnn : Imm12) :
    Field.x (formatA op nnn) = Instr.jumpRegister nnn := by
  apply Fin.ext
  rw [Field.x_val, formatA_toNat, Instr.jumpRegister_val]
  omega

@[simp] theorem Field.op_formatXB (op : BitVec 4) (x : Reg) (nn : Byte) : Field.op (formatXB op x nn) = op := by
  apply BitVec.eq_of_toNat_eq
  rw [Field.op_toNat, formatXB_toNat]
  omega

@[simp] theorem Field.x_formatXB (op : BitVec 4) (x : Reg) (nn : Byte) : Field.x (formatXB op x nn) = x := by
  apply Fin.ext
  rw [Field.x_val, formatXB_toNat]
  omega

@[simp] theorem Field.nn_formatXB (op : BitVec 4) (x : Reg) (nn : Byte) : Field.nn (formatXB op x nn) = nn := by
  apply BitVec.eq_of_toNat_eq
  rw [Field.nn_toNat, formatXB_toNat]
  omega

@[simp] theorem Field.op_formatXY (op : BitVec 4) (x y : Reg) (n : BitVec 4) :
    Field.op (formatXY op x y n) = op := by
  apply BitVec.eq_of_toNat_eq
  rw [Field.op_toNat, formatXY_toNat]
  omega

@[simp] theorem Field.x_formatXY (op : BitVec 4) (x y : Reg) (n : BitVec 4) : Field.x (formatXY op x y n) = x := by
  apply Fin.ext
  rw [Field.x_val, formatXY_toNat]
  omega

@[simp] theorem Field.y_formatXY (op : BitVec 4) (x y : Reg) (n : BitVec 4) : Field.y (formatXY op x y n) = y := by
  apply Fin.ext
  rw [Field.y_val, formatXY_toNat]
  omega

@[simp] theorem Field.nBits_formatXY (op : BitVec 4) (x y : Reg) (n : BitVec 4) :
    Field.nBits (formatXY op x y n) = n := by
  apply BitVec.eq_of_toNat_eq
  rw [Field.nBits_toNat, formatXY_toNat]
  omega

@[simp] theorem Field.n_formatXY (op : BitVec 4) (x y : Reg) (n : BitVec 4) :
    Field.n (formatXY op x y n) = n.toFin := by
  simp [Field.n]

/-! ## A word from its fields, and what a mask leaves of it (R71, R74) -/

theorem formatA_fields (w : Word) : formatA (Field.op w) (Field.nnn w) = w := by
  apply BitVec.eq_of_toNat_eq
  rw [formatA_toNat, Field.op_toNat, Field.nnn_toNat]
  omega

theorem formatXB_fields (w : Word) : formatXB (Field.op w) (Field.x w) (Field.nn w) = w := by
  apply BitVec.eq_of_toNat_eq
  rw [formatXB_toNat, Field.op_toNat, Field.x_val, Field.nn_toNat]
  omega

theorem formatXY_fields (w : Word) : formatXY (Field.op w) (Field.x w) (Field.y w) (Field.nBits w) = w := by
  apply BitVec.eq_of_toNat_eq
  rw [formatXY_toNat, Field.op_toNat, Field.x_val, Field.y_val, Field.nBits_toNat]
  omega

@[simp] theorem Instr.jumpRegister_nnn (w : Word) : Instr.jumpRegister (Field.nnn w) = Field.x w := by
  apply Fin.ext
  rw [Instr.jumpRegister_val, Field.nnn_toNat, Field.x_val]
  omega

theorem formatA_getLsbD (op : BitVec 4) (nnn : Imm12) (k : Nat) :
    (formatA op nnn).getLsbD k = if k < 12 then nnn.getLsbD k else op.getLsbD (k - 12) :=
  BitVec.getLsbD_append

/-- Two words agree under a mask iff they agree in every bit the mask keeps. -/
theorem and_eq_and_iff (w u m : Word) : w &&& m = u &&& m ↔ ∀ k, k < 16 → m.getLsbD k = true → w.getLsbD k = u.getLsbD k := by
  constructor
  · intro h k _ hm
    have := congrArg (fun b : Word => b.getLsbD k) h
    simpa [hm] using this
  · intro h
    apply BitVec.eq_of_getLsbD_eq
    intro k hk
    by_cases hm : m.getLsbD k = true
    · simp [hm, h k hk hm]
    · simp [hm]

/-- The mask of a row that fixes the family alone. -/
theorem mask_family (w : Word) : w &&& 0xF000#16 = formatA (Field.op w) 0 := by
  apply BitVec.eq_of_getLsbD_eq
  intro k hk
  rw [formatA_getLsbD]
  simp only [BitVec.getLsbD_and, Field.op, BitVec.getLsbD_extractLsb']
  interval_cases k <;> simp

/-- The mask of a row that fixes the family and the low nibble. -/
theorem mask_family_nibble (w : Word) :
    w &&& 0xF00F#16 = formatA (Field.op w) ((Field.nBits w).setWidth 12) := by
  apply BitVec.eq_of_getLsbD_eq
  intro k hk
  rw [formatA_getLsbD]
  simp only [BitVec.getLsbD_and, Field.op, Field.nBits, BitVec.getLsbD_extractLsb', BitVec.getLsbD_setWidth]
  interval_cases k <;> simp

/-- The mask of a row that fixes the family and the low byte. -/
theorem mask_family_byte (w : Word) : w &&& 0xF0FF#16 = formatA (Field.op w) ((Field.nn w).setWidth 12) := by
  apply BitVec.eq_of_getLsbD_eq
  intro k hk
  rw [formatA_getLsbD]
  simp only [BitVec.getLsbD_and, Field.op, Field.nn, BitVec.getLsbD_extractLsb', BitVec.getLsbD_setWidth]
  interval_cases k <;> simp

theorem formatA_inj {a b : BitVec 4} {m n : Imm12} : formatA a m = formatA b n ↔ a = b ∧ m = n := by
  refine ⟨fun h => ⟨?_, ?_⟩, fun ⟨h1, h2⟩ => by rw [h1, h2]⟩
  · simpa using congrArg Field.op h
  · simpa using congrArg Field.nnn h

theorem mask_family_iff (w : Word) (op : BitVec 4) : w &&& 0xF000#16 = formatA op 0 ↔ Field.op w = op := by
  rw [mask_family, formatA_inj]
  simp

theorem mask_family_nibble_iff (w : Word) (op n : BitVec 4) :
    w &&& 0xF00F#16 = formatA op (n.setWidth 12) ↔ Field.op w = op ∧ Field.nBits w = n := by
  rw [mask_family_nibble, formatA_inj]
  refine and_congr_right fun _ => ⟨fun h => ?_, fun h => by rw [h]⟩
  have := congrArg BitVec.toNat h
  rw [BitVec.toNat_setWidth, BitVec.toNat_setWidth] at this
  apply BitVec.eq_of_toNat_eq
  omega

theorem mask_family_byte_iff (w : Word) (op : BitVec 4) (nn : Byte) :
    w &&& 0xF0FF#16 = formatA op (nn.setWidth 12) ↔ Field.op w = op ∧ Field.nn w = nn := by
  rw [mask_family_byte, formatA_inj]
  refine and_congr_right fun _ => ⟨fun h => ?_, fun h => by rw [h]⟩
  have := congrArg BitVec.toNat h
  rw [BitVec.toNat_setWidth, BitVec.toNat_setWidth] at this
  apply BitVec.eq_of_toNat_eq
  omega

/-- The family that is none of the first fifteen. -/
theorem family_F_of_ne {b : BitVec 4} (h : b ≠ 0x0 ∧ b ≠ 0x1 ∧ b ≠ 0x2 ∧ b ≠ 0x3 ∧ b ≠ 0x4 ∧ b ≠ 0x5 ∧ b ≠ 0x6 ∧
    b ≠ 0x7 ∧ b ≠ 0x8 ∧ b ≠ 0x9 ∧ b ≠ 0xA ∧ b ≠ 0xB ∧ b ≠ 0xC ∧ b ≠ 0xD ∧ b ≠ 0xE) : b = 0xF := by
  revert b
  decide

/-! ## A word and its bytes (R53) -/

theorem wordOfBytes_toNat (hi lo : Byte) : (wordOfBytes hi lo).toNat = hi.toNat * 256 + lo.toNat :=
  append_toNat hi lo

@[simp] theorem wordOfBytes_bytes (w : Word) : wordOfBytes (highByte w) (lowByte w) = w := by
  apply BitVec.eq_of_toNat_eq
  have := w.isLt
  rw [wordOfBytes_toNat]
  simp only [highByte, lowByte, BitVec.extractLsb'_toNat, Nat.shiftRight_eq_div_pow]
  omega

@[simp] theorem highByte_wordOfBytes (hi lo : Byte) : highByte (wordOfBytes hi lo) = hi := by
  apply BitVec.eq_of_toNat_eq
  rw [highByte, BitVec.extractLsb'_toNat, wordOfBytes_toNat, Nat.shiftRight_eq_div_pow]
  omega

@[simp] theorem lowByte_wordOfBytes (hi lo : Byte) : lowByte (wordOfBytes hi lo) = lo := by
  apply BitVec.eq_of_toNat_eq
  rw [lowByte, BitVec.extractLsb'_toNat, wordOfBytes_toNat, Nat.shiftRight_eq_div_pow]
  omega

/-- The decoder of bytes reads the word the first two of them make. -/
theorem decodeBytes_word (w : Word) (rest : List Byte) :
    decodeBytes (highByte w :: lowByte w :: rest) = (decode w).map fun i => (i, rest) := by
  rw [decodeBytes, wordOfBytes_bytes]

end Sys2Proof
end

