-- ==== Sys2Proof/Laws/PerInstr.lean ====
section
/-! SUPPORT. Families of statements made for each instruction by itself. `RoundTrip`: the decoder gives back the instruction
its word was encoded from, with every operand at every value (spec/30_encoding.md R71, R74, R80). -/

namespace Sys2Proof.Laws.RoundTrip

/-- Decoding the encoding of a well-formed instruction gives it back. -/
def Statement (i : Instr) : Prop := i.wellFormed = true → decode (encode i) = .ok i

theorem cls : Statement .cls := fun _ => rfl
theorem ret : Statement .ret := fun _ => rfl
theorem jpNNN (nnn : Imm12) : Statement (.jpNNN nnn) := fun _ => by simp [encode, decode]
theorem callNNN (nnn : Imm12) : Statement (.callNNN nnn) := fun _ => by simp [encode, decode]
theorem seVxNN (x : Reg) (nn : Byte) : Statement (.seVxNN x nn) := fun _ => by simp [encode, decode]
theorem sneVxNN (x : Reg) (nn : Byte) : Statement (.sneVxNN x nn) := fun _ => by simp [encode, decode]
theorem seVxVy (x y : Reg) : Statement (.seVxVy x y) := fun _ => by simp [encode, decode]
theorem ldVxNN (x : Reg) (nn : Byte) : Statement (.ldVxNN x nn) := fun _ => by simp [encode, decode]
theorem addVxNN (x : Reg) (nn : Byte) : Statement (.addVxNN x nn) := fun _ => by simp [encode, decode]
theorem ldVxVy (x y : Reg) : Statement (.ldVxVy x y) := fun _ => by simp [encode, decode, decodeFamily8]
theorem orVxVy (x y : Reg) : Statement (.orVxVy x y) := fun _ => by simp [encode, decode, decodeFamily8]
theorem andVxVy (x y : Reg) : Statement (.andVxVy x y) := fun _ => by simp [encode, decode, decodeFamily8]
theorem xorVxVy (x y : Reg) : Statement (.xorVxVy x y) := fun _ => by simp [encode, decode, decodeFamily8]
theorem addVxVy (x y : Reg) : Statement (.addVxVy x y) := fun _ => by simp [encode, decode, decodeFamily8]
theorem subVxVy (x y : Reg) : Statement (.subVxVy x y) := fun _ => by simp [encode, decode, decodeFamily8]
theorem shrVx (x y : Reg) : Statement (.shrVx x y) := fun _ => by simp [encode, decode, decodeFamily8]
theorem subnVxVy (x y : Reg) : Statement (.subnVxVy x y) := fun _ => by simp [encode, decode, decodeFamily8]
theorem shlVx (x y : Reg) : Statement (.shlVx x y) := fun _ => by simp [encode, decode, decodeFamily8]
theorem sneVxVy (x y : Reg) : Statement (.sneVxVy x y) := fun _ => by simp [encode, decode]
theorem ldINNN (nnn : Imm12) : Statement (.ldINNN nnn) := fun _ => by simp [encode, decode]

theorem jpVxNNN (x : Reg) (nnn : Imm12) : Statement (.jpVxNNN x nnn) := fun h => by
  have hx : x = Instr.jumpRegister nnn := by simpa [Instr.wellFormed] using h
  simp [encode, decode, hx]

theorem rndVxNN (x : Reg) (nn : Byte) : Statement (.rndVxNN x nn) := fun _ => by simp [encode, decode]
theorem drwVxVyN (x y : Reg) (n : RowCount) : Statement (.drwVxVyN x y n) := fun _ => by simp [encode, decode]
theorem skpVx (x : Reg) : Statement (.skpVx x) := fun _ => by simp [encode, decode, decodeFamilyE]
theorem sknpVx (x : Reg) : Statement (.sknpVx x) := fun _ => by simp [encode, decode, decodeFamilyE]
theorem ldVxDT (x : Reg) : Statement (.ldVxDT x) := fun _ => by simp [encode, decode, decodeFamilyF]
theorem ldVxK (x : Reg) : Statement (.ldVxK x) := fun _ => by simp [encode, decode, decodeFamilyF]
theorem ldDTVx (x : Reg) : Statement (.ldDTVx x) := fun _ => by simp [encode, decode, decodeFamilyF]
theorem ldSTVx (x : Reg) : Statement (.ldSTVx x) := fun _ => by simp [encode, decode, decodeFamilyF]
theorem addIVx (x : Reg) : Statement (.addIVx x) := fun _ => by simp [encode, decode, decodeFamilyF]
theorem ldFVx (x : Reg) : Statement (.ldFVx x) := fun _ => by simp [encode, decode, decodeFamilyF]
theorem ldBVx (x : Reg) : Statement (.ldBVx x) := fun _ => by simp [encode, decode, decodeFamilyF]
theorem ldIV (x : Reg) : Statement (.ldIV x) := fun _ => by simp [encode, decode, decodeFamilyF]
theorem ldVI (x : Reg) : Statement (.ldVI x) := fun _ => by simp [encode, decode, decodeFamilyF]

end Sys2Proof.Laws.RoundTrip
end

