-- ==== Sys2Proof/Certificates/Slice0/Obligations.lean ====
section
/-! DEFINITION. The statements about the model, from the numbered rules of spec/. A docstring names the rule a statement
formalises; where a clause rests on what the spec marks as its own decision, or on a choice of the model, the docstring says
so. Registers, flags and addresses are stated as numbers or through one read, not by the meaning's own expressions. -/

namespace Sys2Proof.Claims

open Sys2Proof.Machine

/-- The parts of the state, so that a frame can name those that may change. -/
inductive Part where
  | mem | v | i | pc | stack | sp | dt | st | keys | fb | fault | faultInfo | stopped | rnd | sched
  deriving DecidableEq, Repr

/-- A part of `t` is as it is in `s`: memory and registers through their reads. -/
def Part.kept (s t : State) : Part → Prop
  | .mem => ∀ a, t.mem.read a = s.mem.read a
  | .v => ∀ r, t.getV r = s.getV r
  | .i => t.i = s.i
  | .pc => t.pc = s.pc
  | .stack => ∀ k : Fin 16, t.stack[k.val] = s.stack[k.val]
  | .sp => t.sp = s.sp
  | .dt => t.dt = s.dt
  | .st => t.st = s.st
  | .keys => ∀ k : Key, t.keys[k.val] = s.keys[k.val]
  | .fb => ∀ q p, t.fb.pixel q p = s.fb.pixel q p
  | .fault => t.fault = s.fault
  | .faultInfo => t.faultInfo = s.faultInfo
  | .stopped => t.stopped = s.stopped
  | .rnd => t.rndSamples = s.rndSamples
  | .sched => t.sched = s.sched

/-- Every part of the state but the listed ones is kept. -/
def KeptBut (changed : List Part) (s t : State) : Prop := ∀ p : Part, p ∉ changed → p.kept s t

/-- Every general register but the listed ones is kept. -/
def RegsKeptBut (rs : List Reg) (s t : State) : Prop := ∀ r, r ∉ rs → t.getV r = s.getV r

/-- Every byte of memory outside `base .. base + n - 1` is kept. -/
def BytesKeptOutside (base n : Nat) (s t : State) : Prop :=
  ∀ a, ¬ (base ≤ a ∧ a < base + n) → t.mem.read a = s.mem.read a

/-- The next fetch faults where `pc` is past 4094 (R53, R120). -/
def NextFetchChecks (t : State) : Prop := t.pc.toNat > 4094 → ∃ a, fetch t = .error (.outOfBoundsAccess a)

/-- The instruction takes a fault: the latch holds its code and value, and everything else is as before (R208). -/
def TakesFault (i : Instr) (s : State) (code : FaultCode) (info : Nat) : Prop :=
  ∃ t, exec i s = .next t ∧ t.fault = code ∧ t.faultInfo.toNat = info ∧ KeptBut [.fault, .faultInfo] s t

/-- A word is the instruction, with the fields the function reads from it, iff `w & mask == match` (R74). -/
def IsRow (mask bits : Word) (f : Word → Instr) : Prop := ∀ w, w &&& mask = bits ↔ decode w = .ok (f w)

/-- How many bytes from `I` on an instruction accesses (R55). -/
def dataBytes : Instr → Nat
  | .drwVxVyN _ _ n => n.val
  | .ldBVx _ => 3
  | .ldIV _ => 16
  | .ldVI _ => 16
  | .cls | .ret | .jpNNN _ | .callNNN _ | .ldINNN _ | .jpVxNNN _ _ => 0
  | .seVxNN _ _ | .sneVxNN _ _ | .ldVxNN _ _ | .addVxNN _ _ | .rndVxNN _ _ => 0
  | .seVxVy _ _ | .sneVxVy _ _ | .ldVxVy _ _ | .orVxVy _ _ | .andVxVy _ _ | .xorVxVy _ _ => 0
  | .addVxVy _ _ | .subVxVy _ _ | .shrVx _ _ | .subnVxVy _ _ | .shlVx _ _ => 0
  | .skpVx _ | .sknpVx _ | .ldVxDT _ | .ldVxK _ | .ldDTVx _ | .ldSTVx _ | .addIVx _ | .ldFVx _ => 0

/-- The sprite of `n` rows at `I`, started at column `x0` of row `y0`, has a 1 over pixel (q, p): row `q - y0` of the
sprite, bit 7 the leftmost column (R161, R162). -/
def SpriteOver (s : State) (x0 y0 n : Nat) (q : Fin 32) (p : Fin 64) : Prop :=
  y0 ≤ q.val ∧ q.val < y0 + n ∧ x0 ≤ p.val ∧ p.val < x0 + 8 ∧
    (s.mem.read (s.i.toNat + (q.val - y0))).getLsbD (7 - (p.val - x0)) = true

/-- The glyphs, transcribed from the table of R56. -/
def glyphs : List (List Nat) :=
  [[0xF0, 0x90, 0x90, 0x90, 0xF0], [0x20, 0x60, 0x20, 0x20, 0x70], [0xF0, 0x10, 0xF0, 0x80, 0xF0],
   [0xF0, 0x10, 0xF0, 0x10, 0xF0], [0x90, 0x90, 0xF0, 0x10, 0x10], [0xF0, 0x80, 0xF0, 0x10, 0xF0],
   [0xF0, 0x80, 0xF0, 0x90, 0xF0], [0xF0, 0x10, 0x20, 0x40, 0x40]] ++
  [[0xF0, 0x90, 0xF0, 0x90, 0xF0], [0xF0, 0x90, 0xF0, 0x10, 0xF0], [0xF0, 0x90, 0xF0, 0x90, 0x90],
   [0xE0, 0x90, 0xE0, 0x90, 0xE0], [0xF0, 0x80, 0x80, 0x80, 0xF0], [0xE0, 0x90, 0x90, 0x90, 0xE0],
   [0xF0, 0x80, 0xF0, 0x80, 0xF0], [0xF0, 0x80, 0xF0, 0x80, 0x80]]

/-- What a byte holds after Reset: the font at 0x050 + 5 * digit + row, zero everywhere else (R35, R56). -/
def ResetMemory (m : Memory) : Prop :=
  (∀ d r, d < 16 → r < 5 → (m.read (0x050 + 5 * d + r)).toNat = (glyphs.getD d []).getD r 0) ∧
  ∀ a, ¬ (0x050 ≤ a ∧ a < 0x0A0) → (m.read a).toNat = 0

/-- Every field but memory and the model's own two is at its reset value (R35). -/
def ResetFields (s : State) : Prop :=
  (∀ r, (s.getV r).toNat = 0) ∧ s.i.toNat = 0 ∧ s.pc.toNat = 0x200 ∧ s.sp.val = 0 ∧
  (∀ k : Fin 16, (s.stack[k.val]).toNat = 0) ∧ s.dt.toNat = 0 ∧ s.st.toNat = 0 ∧ (∀ k : Key, s.keys[k.val] = false) ∧
  (∀ q p, s.fb.pixel q p = false) ∧ s.fault = .noFault ∧ s.faultInfo.toNat = 0 ∧ s.stopped = false

/-- An instruction that looks at no timer. -/
def SeesNoTimer (i : Instr) : Prop := ∀ x, i ≠ .ldVxDT x ∧ i ≠ .ldDTVx x ∧ i ≠ .ldSTVx x

/-- An instruction that looks at no key. -/
def SeesNoKey (i : Instr) : Prop := ∀ x, i ≠ .skpVx x ∧ i ≠ .sknpVx x ∧ i ≠ .ldVxK x

/-- The register an instruction names as the one it writes, if it names one. -/
def destination : Instr → Option Reg
  | .ldVxNN x _ | .addVxNN x _ | .rndVxNN x _ => some x
  | .ldVxVy x _ | .orVxVy x _ | .andVxVy x _ | .xorVxVy x _ => some x
  | .addVxVy x _ | .subVxVy x _ | .shrVx x _ | .subnVxVy x _ | .shlVx x _ => some x
  | .ldVxDT x | .ldVxK x => some x
  | .cls | .ret | .jpNNN _ | .callNNN _ | .ldINNN _ | .jpVxNNN _ _ | .seVxNN _ _ | .sneVxNN _ _ => none
  | .seVxVy _ _ | .sneVxVy _ _ | .drwVxVyN _ _ _ | .skpVx _ | .sknpVx _ | .ldDTVx _ | .ldSTVx _ => none
  | .addIVx _ | .ldFVx _ | .ldBVx _ | .ldIV _ | .ldVI _ => none

/-- The instructions that write `VF` as a side effect (R22). -/
def WritesFlag (i : Instr) : Prop :=
  (∃ x y, i = .addVxVy x y ∨ i = .subVxVy x y ∨ i = .subnVxVy x y ∨ i = .shrVx x y ∨ i = .shlVx x y) ∨
  ∃ x y n, i = .drwVxVyN x y n

end Sys2Proof.Claims

open Sys2Proof Sys2Proof.Machine Sys2Proof.Claims

/-! ## Encoding -/

/-- R74 (the assignment of bit patterns is the spec's decision D3, the field positions D1): each of the 34 rows, its mask and
match, the instruction, and the fields it takes its operands from. -/
def Obligations.EveryRowDecodesWithItsFields : Prop :=
  (IsRow 0xFFFF 0x00E0 (fun _ => .cls) ∧ IsRow 0xFFFF 0x00EE (fun _ => .ret) ∧
   IsRow 0xF000 0x1000 (fun w => .jpNNN (Field.nnn w)) ∧ IsRow 0xF000 0x2000 (fun w => .callNNN (Field.nnn w)) ∧
   IsRow 0xF000 0x3000 (fun w => .seVxNN (Field.x w) (Field.nn w)) ∧
   IsRow 0xF000 0x4000 (fun w => .sneVxNN (Field.x w) (Field.nn w)) ∧
   IsRow 0xF00F 0x5000 (fun w => .seVxVy (Field.x w) (Field.y w)) ∧
   IsRow 0xF000 0x6000 (fun w => .ldVxNN (Field.x w) (Field.nn w)) ∧
   IsRow 0xF000 0x7000 (fun w => .addVxNN (Field.x w) (Field.nn w))) ∧
  (IsRow 0xF00F 0x8000 (fun w => .ldVxVy (Field.x w) (Field.y w)) ∧
   IsRow 0xF00F 0x8001 (fun w => .orVxVy (Field.x w) (Field.y w)) ∧
   IsRow 0xF00F 0x8002 (fun w => .andVxVy (Field.x w) (Field.y w)) ∧
   IsRow 0xF00F 0x8003 (fun w => .xorVxVy (Field.x w) (Field.y w)) ∧
   IsRow 0xF00F 0x8004 (fun w => .addVxVy (Field.x w) (Field.y w)) ∧
   IsRow 0xF00F 0x8005 (fun w => .subVxVy (Field.x w) (Field.y w)) ∧
   IsRow 0xF00F 0x8006 (fun w => .shrVx (Field.x w) (Field.y w)) ∧
   IsRow 0xF00F 0x8007 (fun w => .subnVxVy (Field.x w) (Field.y w)) ∧
   IsRow 0xF00F 0x800E (fun w => .shlVx (Field.x w) (Field.y w)) ∧
   IsRow 0xF00F 0x9000 (fun w => .sneVxVy (Field.x w) (Field.y w))) ∧
  (IsRow 0xF000 0xA000 (fun w => .ldINNN (Field.nnn w)) ∧
   IsRow 0xF000 0xB000 (fun w => .jpVxNNN (Field.x w) (Field.nnn w)) ∧
   IsRow 0xF000 0xC000 (fun w => .rndVxNN (Field.x w) (Field.nn w)) ∧
   IsRow 0xF000 0xD000 (fun w => .drwVxVyN (Field.x w) (Field.y w) (Field.n w)) ∧
   IsRow 0xF0FF 0xE09E (fun w => .skpVx (Field.x w)) ∧ IsRow 0xF0FF 0xE0A1 (fun w => .sknpVx (Field.x w))) ∧
  (IsRow 0xF0FF 0xF007 (fun w => .ldVxDT (Field.x w)) ∧ IsRow 0xF0FF 0xF00A (fun w => .ldVxK (Field.x w)) ∧
   IsRow 0xF0FF 0xF015 (fun w => .ldDTVx (Field.x w)) ∧ IsRow 0xF0FF 0xF018 (fun w => .ldSTVx (Field.x w)) ∧
   IsRow 0xF0FF 0xF01E (fun w => .addIVx (Field.x w)) ∧ IsRow 0xF0FF 0xF029 (fun w => .ldFVx (Field.x w)) ∧
   IsRow 0xF0FF 0xF033 (fun w => .ldBVx (Field.x w)) ∧ IsRow 0xF0FF 0xF055 (fun w => .ldIV (Field.x w)) ∧
   IsRow 0xF0FF 0xF065 (fun w => .ldVI (Field.x w)))

/-- R75 (the strict set is the spec's decision D5): the words that are rejected, by class, and no others. -/
def Obligations.IllegalWordsAreTheListedOnes : Prop :=
  ∀ w : Word,
    (decode w = .error .family0 ↔ w.toNat < 0x1000 ∧ w.toNat ≠ 0x00E0 ∧ w.toNat ≠ 0x00EE) ∧
    (decode w = .error .family5 ↔ w.toNat / 4096 = 0x5 ∧ w.toNat % 16 ≠ 0) ∧
    (decode w = .error .family8 ↔ w.toNat / 4096 = 0x8 ∧ w.toNat % 16 ∈ [0x8, 0x9, 0xA, 0xB, 0xC, 0xD, 0xF]) ∧
    (decode w = .error .family9 ↔ w.toNat / 4096 = 0x9 ∧ w.toNat % 16 ≠ 0) ∧
    (decode w = .error .familyE ↔ w.toNat / 4096 = 0xE ∧ w.toNat % 256 ∉ [0x9E, 0xA1]) ∧
    (decode w = .error .familyF ↔ w.toNat / 4096 = 0xF ∧
      w.toNat % 256 ∉ [0x07, 0x0A, 0x15, 0x18, 0x1E, 0x29, 0x33, 0x55, 0x65]) ∧
    decode w ≠ .error .truncated

/-- R71 (positions: the spec's decision D1): the six fields of a word as numbers. -/
def Obligations.FieldsStandAtTheirBits : Prop :=
  ∀ w : Word, (Field.op w).toNat = w.toNat / 4096 ∧ (Field.x w).val = w.toNat / 256 % 16 ∧
    (Field.y w).val = w.toNat / 16 % 16 ∧ (Field.n w).val = w.toNat % 16 ∧ (Field.nn w).toNat = w.toNat % 256 ∧
    (Field.nnn w).toNat = w.toNat % 4096

/-- Decoding the encoding of a well-formed instruction gives it back, with every operand at every value (R71, R74, R80). -/
def Obligations.DecodeAfterEncodeIsIdentity : Prop := ∀ i : Instr, Sys2Proof.Laws.RoundTrip.Statement i

/-- Whatever a word decodes to is well formed and encodes to that very word: each word has one meaning and no bit of it is
dropped (R71, R74, R80). -/
def Obligations.EncodeAfterDecodeIsIdentity : Prop :=
  ∀ (w : Word) (i : Instr), decode w = .ok i → i.wellFormed = true ∧ encode i = w

/-- R77 (that the block transfers ignore `X` is the spec's decision D25, log entry 10): two words that differ in an unused
nibble alone act alike, whatever the state. -/
def Obligations.UnusedNibblesDoNotMatter : Prop :=
  ∀ w w' : Word, ∀ s : State,
    (w &&& 0xFF0F = w' &&& 0xFF0F → (w &&& 0xF00F = 0x8006 ∨ w &&& 0xF00F = 0x800E) →
      ∃ i i', decode w = .ok i ∧ decode w' = .ok i' ∧ exec i s = exec i' s) ∧
    (w &&& 0xF0FF = w' &&& 0xF0FF → (w &&& 0xF0FF = 0xF055 ∨ w &&& 0xF0FF = 0xF065) →
      ∃ i i', decode w = .ok i ∧ decode w' = .ok i' ∧ exec i s = exec i' s)

/-- Words written out from the rows of R74, one per group, and what they are (the bit patterns are the spec's decision D3, the
field positions D1; log entry 10). -/
def Obligations.SampleWordsDecode : Prop :=
  decode 0x00EE = .ok .ret ∧ decode 0x2F00 = .ok (.callNNN 0xF00) ∧ decode 0x3A7F = .ok (.seVxNN 0xA 0x7F) ∧
  decode 0x8AB7 = .ok (.subnVxVy 0xA 0xB) ∧ decode 0xB345 = .ok (.jpVxNNN 3 0x345) ∧
  decode 0xD12F = .ok (.drwVxVyN 1 2 15) ∧ decode 0xE1A1 = .ok (.sknpVx 1) ∧ decode 0xF365 = .ok (.ldVI 3)

/-! ## Fetch, step and faults -/

/-- R53 (the order of the two bytes is the spec's decision D2): the fetch gives the word whose high byte stands at `pc`, and
faults with the lowest offending address where `pc + 1` is past the end. -/
def Obligations.FetchReadsHighByteFirst : Prop :=
  ∀ s : State,
    (s.pc.toNat ≤ 4094 → ∃ ir, fetch s = .ok ir ∧
      ir.toNat = (s.mem.read s.pc.toNat).toNat * 256 + (s.mem.read (s.pc.toNat + 1)).toNat) ∧
    (s.pc.toNat = 4095 → fetch s = .error (.outOfBoundsAccess 4096)) ∧
    (s.pc.toNat > 4095 → fetch s = .error (.outOfBoundsAccess s.pc.toNat))

/-- R51: a data read past 4095 raises `OutOfBoundsAccess` of its address and any other gives the byte; nothing is wrapped or
masked, and a read changes no state. -/
def Obligations.DataReadIsBoundsChecked : Prop :=
  ∀ (s : State) (a : Nat),
    (a > 4095 → memRead s a = .error (.outOfBoundsAccess a)) ∧ (a ≤ 4095 → memRead s a = .ok (s.mem.read a))

/-- A step runs the decoded instruction: where the CPU moves next, the core is not halted, and the two bytes at `pc` decode to
`i`, `step` is `exec i`, with nothing around it but the schedule moving on (R11); and where an action is scheduled, `step` is
that action (R36; the schedule is the model's own, log entry 4). -/
def Obligations.StepRunsTheDecodedInstruction : Prop :=
  (∀ (s : State) (i : Instr), s.halted = false → s.pc.toNat ≤ 4094 →
    decode (wordOfBytes (s.mem.read s.pc.toNat) (s.mem.read (s.pc.toNat + 1))) = .ok i →
    (s.sched = [] → step s = exec i s) ∧
    ∀ rest, s.sched = .step :: rest → step s = exec i { s with sched := rest }) ∧
  ∀ (s : State) (a : Action) (rest : List Action), s.sched = a :: rest → step s = perform a { s with sched := rest }

/-- R11, R207: the order of the checks of one step of a running core. A `pc` past 4094 is the fetch's fault whatever memory
holds, then comes the decoding, then the instruction. What each fault records is R53 and R200; the recorded values, and that
nothing but the latch changes (R208), are the spec's decision D11 (log entry 10). -/
def Obligations.StepChecksInOrder : Prop :=
  ∀ s : State, s.halted = false →
    (s.pc.toNat > 4094 → ∃ t, cpuStep s = .next t ∧ t.fault = .outOfBoundsAccess ∧
      t.faultInfo.toNat = max s.pc.toNat 4096 ∧ KeptBut [.fault, .faultInfo] s t) ∧
    (∀ ir e, fetch s = .ok ir → decode ir = .error e → ∃ t, cpuStep s = .next t ∧ t.fault = .decodeError ∧
      t.faultInfo = ir ∧ KeptBut [.fault, .faultInfo] s t) ∧
    (∀ ir i, fetch s = .ok ir → decode ir = .ok i → cpuStep s = exec i s)

/-- R201 (that nothing else changes is R208, the spec's decision D11, log entry 10): a fetched word that is no instruction
raises `DecodeError` and is recorded; so does the word `0x0000` of memory that nothing has written, at 0x200 after reset for
one. -/
def Obligations.IllegalWordRaisesDecodeError : Prop :=
  (∀ (s : State) (ir : Word) (e : Illegal), s.halted = false → fetch s = .ok ir → decode ir = .error e →
    ∃ t, cpuStep s = .next t ∧ t.fault = .decodeError ∧ t.faultInfo = ir ∧ KeptBut [.fault, .faultInfo] s t) ∧
  (∀ s : State, s.halted = false → fetch s = .ok 0x0000 →
    ∃ t, cpuStep s = .next t ∧ t.fault = .decodeError ∧ t.faultInfo.toNat = 0) ∧
  ∃ t, step State.reset = .next t ∧ t.fault = .decodeError ∧ t.faultInfo.toNat = 0

/-- R63 (checked whole before any write: the spec's decision D10): each of the four memory instructions whose range passes
4095 raises `OutOfBoundsAccess` of `max(I, 4096)` and writes nothing at all. -/
def Obligations.MemoryInstructionsFaultWhole : Prop :=
  ∀ (s : State) (i : Instr), 0 < dataBytes i → s.i.toNat + dataBytes i - 1 > 4095 →
    TakesFault i s .outOfBoundsAccess (max s.i.toNat 4096)

/-- R200, R208 (codes and precision: the spec's decision D11): a step of a running core that ends in a fault wrote the latch
and nothing else, and each fault comes from the instructions and conditions of the table and from no others. -/
def Obligations.FaultsAreTheListedOnes : Prop :=
  ∀ s t : State, s.halted = false → cpuStep s = .next t → t.fault ≠ .noFault →
    KeptBut [.fault, .faultInfo] s t ∧
    (t.fault = .decodeError → t.faultPort.toNat = 1 ∧ fetch s = .ok t.faultInfo ∧ ∃ e, decode t.faultInfo = .error e) ∧
    (t.fault = .stackOverflow → t.faultPort.toNat = 2 ∧ t.faultInfo = s.pc ∧ s.sp.val = 16 ∧
      ∃ ir nnn, fetch s = .ok ir ∧ decode ir = .ok (.callNNN nnn)) ∧
    (t.fault = .outOfBoundsAccess → t.faultPort.toNat = 3 ∧
      ((s.pc.toNat > 4094 ∧ t.faultInfo.toNat = max s.pc.toNat 4096) ∨
      ∃ ir i, fetch s = .ok ir ∧ decode ir = .ok i ∧ 0 < dataBytes i ∧ s.i.toNat + dataBytes i - 1 > 4095 ∧
        t.faultInfo.toNat = max s.i.toNat 4096)) ∧
    (t.fault = .stackUnderflow → t.faultPort.toNat = 4 ∧ t.faultInfo = s.pc ∧ s.sp.val = 0 ∧
      ∃ ir, fetch s = .ok ir ∧ decode ir = .ok .ret) ∧
    (t.fault = .keyIndexError → t.faultPort.toNat = 5 ∧ ∃ ir x, fetch s = .ok ir ∧
      (decode ir = .ok (.skpVx x) ∨ decode ir = .ok (.sknpVx x)) ∧ (s.getV x).toNat > 15 ∧ t.faultInfo.toNat = (s.getV x).toNat)

/-- R210 (the gating is the spec's decision D22): on a halted core Step, Tick, KeyEvent and Snapshot change nothing, no tone
sounds, and a snapshot still gives the framebuffer. -/
def Obligations.HaltedCoreIsFrozen : Prop :=
  ∀ s : State, (s.fault ≠ .noFault ∨ s.stopped = true) →
    perform .step s = .next s ∧ perform .tick s = .next s ∧ (∀ k b, perform (.keyEvent k b) s = .next s) ∧
    perform .snapshot s = .next s ∧ s.tone = false ∧ s.tickTone = none ∧ s.snapshot = s.fb

/-- R209, R219: only Reset leaves the halted state; after any other action the fault and what it recorded stand. -/
def Obligations.OnlyResetLeavesHalt : Prop :=
  ∀ s t : State, s.halted = true → step s = .next t → (∀ image rest, s.sched ≠ .restart image :: rest) →
    t.halted = true ∧ t.fault = s.fault ∧ t.faultInfo = s.faultInfo

/-- No step of this machine stops: every one of the five agents' actions, and every instruction in every state, is answered by
a next state, faults included (R208; that a fault is taken in a next state is log entry 2). -/
def Obligations.EveryStepIsAnsweredByANextState : Prop :=
  (∀ s : State, ∃ t, step s = .next t) ∧ ∀ (i : Instr) (s : State), ∃ t, exec i s = .next t

/-- The model's `withFetchWord` (log entry 7) places a word so that the next step runs it, and on a running core changes
nothing but the two bytes at `pc` and, where actions are scheduled, puts a CPU step first. -/
def Obligations.PlacedWordRunsNext : Prop :=
  ∀ (s : State) (w : Word) (i : Instr), s.Inv → decode w = .ok i →
    ∃ u, step (s.withFetchWord 16 w.toNat) = exec i u ∧ u.halted = false ∧ fetch u = .ok w ∧
      KeptBut [.mem, .pc, .fault, .faultInfo, .stopped] s u ∧ BytesKeptOutside u.pc.toNat 2 s u ∧
      (s.halted = false → s.pc.toNat ≤ 4094 → KeptBut [.mem] s u)

/-! ## Register and ALU instructions -/

/-- R101, R103 (existence and encoding: the spec's decision D4): the two loads write one register and nothing else. -/
def Obligations.LoadsWriteOneRegister : Prop :=
  (∀ (x : Reg) (nn : Byte) (s : State), ∃ t, exec (.ldVxNN x nn) s = .next t ∧ t.getV x = nn ∧
    RegsKeptBut [x] s t ∧ t.pc = s.pc + 2 ∧ KeptBut [.v, .pc] s t) ∧
  ∀ (x y : Reg) (s : State), ∃ t, exec (.ldVxVy x y) s = .next t ∧ t.getV x = s.getV y ∧
    RegsKeptBut [x] s t ∧ t.pc = s.pc + 2 ∧ KeptBut [.v, .pc] s t

/-- R102: ADD Vx,NN, its words, its sum modulo 256, and no flag. -/
def Obligations.AddImmediateWrapsWithoutFlag : Prop :=
  IsRow 0xF000 0x7000 (fun w => .addVxNN (Field.x w) (Field.nn w)) ∧
  ∀ (x : Reg) (nn : Byte) (s : State), ∃ t, exec (.addVxNN x nn) s = .next t ∧
    (t.getV x).toNat = ((s.getV x).toNat + nn.toNat) % 256 ∧ RegsKeptBut [x] s t ∧ t.pc = s.pc + 2 ∧
    KeptBut [.v, .pc] s t

/-- R104, R105, R106 (existence D4, `VF` unchanged D8: the spec's decisions): the bitwise operations, bit by bit, no flag. -/
def Obligations.BitwiseOperationsTouchNoFlag : Prop :=
  ∀ (x y : Reg) (s : State),
    (∃ t, exec (.orVxVy x y) s = .next t ∧
      (∀ k, k < 8 → (t.getV x).getLsbD k = ((s.getV x).getLsbD k || (s.getV y).getLsbD k)) ∧
      RegsKeptBut [x] s t ∧ t.pc = s.pc + 2 ∧ KeptBut [.v, .pc] s t) ∧
    (∃ t, exec (.andVxVy x y) s = .next t ∧
      (∀ k, k < 8 → (t.getV x).getLsbD k = ((s.getV x).getLsbD k && (s.getV y).getLsbD k)) ∧
      RegsKeptBut [x] s t ∧ t.pc = s.pc + 2 ∧ KeptBut [.v, .pc] s t) ∧
    ∃ t, exec (.xorVxVy x y) s = .next t ∧
      (∀ k, k < 8 → (t.getV x).getLsbD k = ((s.getV x).getLsbD k ^^ (s.getV y).getLsbD k)) ∧
      RegsKeptBut [x] s t ∧ t.pc = s.pc + 2 ∧ KeptBut [.v, .pc] s t

/-- R107 (flag written last: the spec's decision D6): the sum modulo 256, and `VF` 1 iff the sum exceeds 255, for every pair
of registers, those naming `VF` too. -/
def Obligations.AddRegistersSetsCarry : Prop :=
  ∀ (x y : Reg) (s : State), ∃ t, exec (.addVxVy x y) s = .next t ∧
    (x ≠ VF → (t.getV x).toNat = ((s.getV x).toNat + (s.getV y).toNat) % 256) ∧
    (t.getV VF).toNat = (if (s.getV x).toNat + (s.getV y).toNat > 255 then 1 else 0) ∧
    RegsKeptBut [x, VF] s t ∧ t.pc = s.pc + 2 ∧ KeptBut [.v, .pc] s t

/-- R108, R110 (flag written last: the spec's decision D6): both subtractions, `VF` 1 iff no borrow occurred. -/
def Obligations.SubtractionsSetNoBorrow : Prop :=
  ∀ (x y : Reg) (s : State),
    (∃ t, exec (.subVxVy x y) s = .next t ∧
      (x ≠ VF → ((t.getV x).toNat : Int) = ((s.getV x).toNat - (s.getV y).toNat : Int) % 256) ∧
      (t.getV VF).toNat = (if (s.getV x).toNat ≥ (s.getV y).toNat then 1 else 0) ∧
      RegsKeptBut [x, VF] s t ∧ t.pc = s.pc + 2 ∧ KeptBut [.v, .pc] s t) ∧
    ∃ t, exec (.subnVxVy x y) s = .next t ∧
      (x ≠ VF → ((t.getV x).toNat : Int) = ((s.getV y).toNat - (s.getV x).toNat : Int) % 256) ∧
      (t.getV VF).toNat = (if (s.getV y).toNat ≥ (s.getV x).toNat then 1 else 0) ∧
      RegsKeptBut [x, VF] s t ∧ t.pc = s.pc + 2 ∧ KeptBut [.v, .pc] s t

/-- R109, R111 (the order of the two writes for `X = 0xF`: the spec's decision D7): the shifts by one, the bit shifted out in
`VF`; with `X = 0xF` the flag written first is itself shifted. -/
def Obligations.ShiftsMoveOneBitIntoFlag : Prop :=
  ∀ (x y : Reg) (s : State),
    (∃ t, exec (.shrVx x y) s = .next t ∧
      (x ≠ VF → (t.getV x).toNat = (s.getV x).toNat / 2 ∧ (t.getV VF).toNat = (s.getV x).toNat % 2) ∧
      (x = VF → (t.getV VF).toNat = 0) ∧ RegsKeptBut [x, VF] s t ∧ t.pc = s.pc + 2 ∧ KeptBut [.v, .pc] s t) ∧
    ∃ t, exec (.shlVx x y) s = .next t ∧
      (x ≠ VF → (t.getV x).toNat = (s.getV x).toNat * 2 % 256 ∧ (t.getV VF).toNat = (s.getV x).toNat / 128) ∧
      (x = VF → (t.getV VF).toNat = if (s.getV VF).toNat ≥ 128 then 2 else 0) ∧
      RegsKeptBut [x, VF] s t ∧ t.pc = s.pc + 2 ∧ KeptBut [.v, .pc] s t

/-- R112, R34 (the byte is a free value, decision D24 and log entry 3): RND takes the next random byte once, masks it, touches
no flag; whatever the byte, the result has no bit outside the mask, and a full mask gives the byte. -/
def Obligations.RandomIsMaskedAndSampledOnce : Prop :=
  ∀ (x : Reg) (nn : Byte) (s : State), ∃ t, exec (.rndVxNN x nn) s = .next t ∧
    (∀ k, k < 8 → (t.getV x).getLsbD k = ((Config.rndIn s.rndSamples).getLsbD k && nn.getLsbD k)) ∧
    t.getV x &&& ~~~nn = 0 ∧ (nn = 0xFF → t.getV x = Config.rndIn s.rndSamples) ∧
    t.rndSamples = s.rndSamples + 1 ∧ RegsKeptBut [x] s t ∧ t.pc = s.pc + 2 ∧ KeptBut [.v, .pc, .rnd] s t

/-! ## Control transfer -/

/-- R123 (encoding: the spec's decision D3): JP writes the target and nothing else; a jump to its own address changes nothing
at all. -/
def Obligations.JumpWritesTheTarget : Prop :=
  (∀ (nnn : Imm12) (s : State), ∃ t, exec (.jpNNN nnn) s = .next t ∧ t.pc.toNat = nnn.toNat ∧ KeptBut [.pc] s t) ∧
  ∀ (nnn : Imm12) (s : State), s.pc.toNat = nnn.toNat → exec (.jpNNN nnn) s = .next s

/-- R124: JP Vx,NNN, its words, the register its address names, and a sum that is not reduced modulo 4096
and that faults at the next fetch where it is above 4094. -/
def Obligations.OffsetJumpAddsTheNamedRegister : Prop :=
  IsRow 0xF000 0xB000 (fun w => .jpVxNNN (Field.x w) (Field.nnn w)) ∧
  (∀ w, (Field.x w).val = (Field.nnn w).toNat / 256) ∧
  ∀ (x : Reg) (nnn : Imm12) (s : State), ∃ t, exec (.jpVxNNN x nnn) s = .next t ∧
    t.pc.toNat = nnn.toNat + (s.getV x).toNat ∧ NextFetchChecks t ∧ KeptBut [.pc] s t

/-- R122, R202: CALL, its words; on a stack with room it pushes the address after itself and jumps, and on a full one it
raises `StackOverflow` of its `pc` and changes nothing else. -/
def Obligations.CallPushesTheReturnAddress : Prop :=
  IsRow 0xF000 0x2000 (fun w => .callNNN (Field.nnn w)) ∧
  ∀ (nnn : Imm12) (s : State),
    (∀ k : Fin 16, s.sp.val = k.val → ∃ t, exec (.callNNN nnn) s = .next t ∧ t.stack[k.val] = s.pc + 2 ∧
      (∀ j : Fin 16, j ≠ k → t.stack[j.val] = s.stack[j.val]) ∧ t.sp.val = k.val + 1 ∧ t.pc.toNat = nnn.toNat ∧
      KeptBut [.stack, .sp, .pc] s t) ∧
    (s.sp.val = 16 → TakesFault (.callNNN nnn) s .stackOverflow s.pc.toNat)

/-- R121, R204 (the fault on an empty stack is the spec's decision D12): RET goes to exactly the newest entry, which stays
where it is; on an empty stack it raises `StackUnderflow` of its `pc`. -/
def Obligations.ReturnPopsTheNewestEntry : Prop :=
  ∀ s : State,
    (∀ k : Fin 16, s.sp.val = k.val + 1 → ∃ t, exec .ret s = .next t ∧ t.pc = s.stack[k.val] ∧ t.sp.val = k.val ∧
      KeptBut [.sp, .pc] s t) ∧
    (s.sp.val = 0 → TakesFault .ret s .stackUnderflow s.pc.toNat)

/-- R121, R122: whatever a subroutine does, if it leaves the call stack as the CALL made it, its RET goes to the instruction
right after the CALL and the stack is as deep as before. -/
def Obligations.ReturnComesBackAfterTheCall : Prop :=
  ∀ (nnn : Imm12) (s t u : State), s.sp.val < 16 → exec (.callNNN nnn) s = .next t → u.stack = t.stack → u.sp = t.sp →
    ∃ r, exec .ret u = .next r ∧ r.pc = s.pc + 2 ∧ r.sp = s.sp ∧
      ∀ j : Fin 16, j.val < s.sp.val → r.stack[j.val] = s.stack[j.val]

/-- R125, R126: the skips on an immediate, their words, 4 where the condition holds and 2 otherwise, and the fault of the next
fetch where that is past the end of memory. -/
def Obligations.ImmediateSkipsAdvanceByFourOrTwo : Prop :=
  IsRow 0xF000 0x3000 (fun w => .seVxNN (Field.x w) (Field.nn w)) ∧
  IsRow 0xF000 0x4000 (fun w => .sneVxNN (Field.x w) (Field.nn w)) ∧
  ∀ (x : Reg) (nn : Byte) (s : State),
    (∃ t, exec (.seVxNN x nn) s = .next t ∧ (s.getV x = nn → t.pc = s.pc + 4) ∧ (s.getV x ≠ nn → t.pc = s.pc + 2) ∧
      NextFetchChecks t ∧ KeptBut [.pc] s t) ∧
    ∃ t, exec (.sneVxNN x nn) s = .next t ∧ (s.getV x ≠ nn → t.pc = s.pc + 4) ∧ (s.getV x = nn → t.pc = s.pc + 2) ∧
      NextFetchChecks t ∧ KeptBut [.pc] s t

/-- R127, R128: the skips on two registers, their words, 4 where the condition holds and 2 otherwise; a word of families 5 and
9 with another low nibble is illegal. The fault of the next fetch where that is past the end of memory is R120 and R53 (no
check by the skip itself: the spec's decision D17, log entry 10). -/
def Obligations.RegisterSkipsAdvanceByFourOrTwo : Prop :=
  IsRow 0xF00F 0x5000 (fun w => .seVxVy (Field.x w) (Field.y w)) ∧
  IsRow 0xF00F 0x9000 (fun w => .sneVxVy (Field.x w) (Field.y w)) ∧
  (∀ w : Word, w.toNat % 16 ≠ 0 → (w.toNat / 4096 = 5 ∨ w.toNat / 4096 = 9) → ∃ e, decode w = .error e) ∧
  ∀ (x y : Reg) (s : State),
    (∃ t, exec (.seVxVy x y) s = .next t ∧ (s.getV x = s.getV y → t.pc = s.pc + 4) ∧
      (s.getV x ≠ s.getV y → t.pc = s.pc + 2) ∧ NextFetchChecks t ∧ KeptBut [.pc] s t) ∧
    ∃ t, exec (.sneVxVy x y) s = .next t ∧ (s.getV x ≠ s.getV y → t.pc = s.pc + 4) ∧
      (s.getV x = s.getV y → t.pc = s.pc + 2) ∧ NextFetchChecks t ∧ KeptBut [.pc] s t

/-- R120 (no alignment or range check: the spec's decision D17): where an instruction that takes no fault leaves `pc`. -/
def Obligations.PcMovesOnlyAsListed : Prop :=
  ∀ (i : Instr) (s t : State), s.fault = .noFault → exec i s = .next t → t.fault = .noFault →
    (t.pc = s.pc + 2 ∧ i ≠ .ret ∧ (∀ nnn, i ≠ .jpNNN nnn ∧ i ≠ .callNNN nnn) ∧ ∀ x nnn, i ≠ .jpVxNNN x nnn) ∨
    (t.pc = s.pc + 4 ∧ ((∃ x nn, i = .seVxNN x nn ∨ i = .sneVxNN x nn) ∨ (∃ x y, i = .seVxVy x y ∨ i = .sneVxVy x y) ∨
      ∃ x, i = .skpVx x ∨ i = .sknpVx x)) ∨
    (∃ nnn, (i = .jpNNN nnn ∨ i = .callNNN nnn) ∧ t.pc.toNat = nnn.toNat) ∨
    (∃ x nnn, i = .jpVxNNN x nnn ∧ t.pc.toNat = nnn.toNat + (s.getV x).toNat) ∨
    (i = .ret ∧ ∃ k : Fin 16, s.sp.val = k.val + 1 ∧ t.pc = s.stack[k.val]) ∨
    (∃ x, i = .ldVxK x ∧ (∀ k : Key, s.keys[k.val] = false) ∧ t.pc = s.pc)

/-! ## Index register, loads and stores -/

/-- R140, R142, R144 (existence D4, width D16, no mask D14: the spec's decisions): the three instructions that set `I`. -/
def Obligations.IndexInstructionsWriteI : Prop :=
  (∀ (nnn : Imm12) (s : State), ∃ t, exec (.ldINNN nnn) s = .next t ∧ t.i.toNat = nnn.toNat ∧ t.pc = s.pc + 2 ∧
    KeptBut [.i, .pc] s t) ∧
  (∀ (x : Reg) (s : State), ∃ t, exec (.addIVx x) s = .next t ∧
    t.i.toNat = (s.i.toNat + (s.getV x).toNat) % 65536 ∧ t.pc = s.pc + 2 ∧ KeptBut [.i, .pc] s t) ∧
  ∀ (x : Reg) (s : State), ∃ t, exec (.ldFVx x) s = .next t ∧ t.i.toNat = 0x050 + 5 * (s.getV x).toNat ∧
    t.pc = s.pc + 2 ∧ KeptBut [.i, .pc] s t

/-- R146: LD B,Vx, its words; the three decimal digits at `I`, `I + 1`, `I + 2`, and the fault past the end of memory. -/
def Obligations.DecimalDigitsAreStored : Prop :=
  IsRow 0xF0FF 0xF033 (fun w => .ldBVx (Field.x w)) ∧
  ∀ (x : Reg) (s : State),
    (s.mem.wf → s.i.toNat + 2 ≤ 4095 → ∃ t, exec (.ldBVx x) s = .next t ∧
      (t.mem.read s.i.toNat).toNat = (s.getV x).toNat / 100 ∧
      (t.mem.read (s.i.toNat + 1)).toNat = (s.getV x).toNat / 10 % 10 ∧
      (t.mem.read (s.i.toNat + 2)).toNat = (s.getV x).toNat % 10 ∧
      BytesKeptOutside s.i.toNat 3 s t ∧ t.pc = s.pc + 2 ∧ KeptBut [.mem, .pc] s t) ∧
    (s.i.toNat + 2 > 4095 → TakesFault (.ldBVx x) s .outOfBoundsAccess (max s.i.toNat 4096))

/-- R150 (all sixteen registers: the spec's decision D25): the block store, whatever `X` is, and the fault past the end. -/
def Obligations.BlockStoreWritesAllRegisters : Prop :=
  ∀ (x : Reg) (s : State),
    (s.mem.wf → s.i.toNat + 15 ≤ 4095 → ∃ t, exec (.ldIV x) s = .next t ∧
      (∀ k : Reg, t.mem.read (s.i.toNat + k.val) = s.getV k) ∧
      BytesKeptOutside s.i.toNat 16 s t ∧ t.pc = s.pc + 2 ∧ KeptBut [.mem, .pc] s t) ∧
    (s.i.toNat + 15 > 4095 → TakesFault (.ldIV x) s .outOfBoundsAccess (max s.i.toNat 4096))

/-- R152 (all sixteen registers: the spec's decision D25): the block load, whatever `X` is, and the fault past the end. -/
def Obligations.BlockLoadReadsAllRegisters : Prop :=
  ∀ (x : Reg) (s : State),
    (s.i.toNat + 15 ≤ 4095 → ∃ t, exec (.ldVI x) s = .next t ∧
      (∀ k : Reg, t.getV k = s.mem.read (s.i.toNat + k.val)) ∧ t.pc = s.pc + 2 ∧ KeptBut [.v, .pc] s t) ∧
    (s.i.toNat + 15 > 4095 → TakesFault (.ldVI x) s .outOfBoundsAccess (max s.i.toNat 4096))

/-- R150, R152 (every register, whatever `X` is: the spec's decision D25, log entry 10): what the block store saved, a block
load at the same `I` brings back, whatever happened to the registers in between. -/
def Obligations.BlockLoadRestoresBlockStore : Prop :=
  ∀ (x y : Reg) (s t u : State), s.mem.wf → s.i.toNat + 15 ≤ 4095 → exec (.ldIV x) s = .next t →
    u.mem = t.mem → u.i = s.i → ∃ r, exec (.ldVI y) u = .next r ∧ ∀ k : Reg, r.getV k = s.getV k

/-- R61 (the spec's decisions D31, the coherence; D25, all sixteen registers whatever `X` is; D2, the high byte first; log
entry 10): a store is seen by the next fetch: after the block store, a core whose `pc` points at two of the stored bytes
fetches the word those registers make, high byte first. -/
def Obligations.StoredBytesAreFetched : Prop :=
  ∀ (x : Reg) (s t u : State) (k j : Reg), s.mem.wf → s.i.toNat + 15 ≤ 4095 → exec (.ldIV x) s = .next t →
    u.mem = t.mem → j.val = k.val + 1 → u.pc.toNat = s.i.toNat + k.val →
    ∃ ir, fetch u = .ok ir ∧ ir.toNat = (s.getV k).toNat * 256 + (s.getV j).toNat

/-! ## Display -/

/-- R160 (meaning and encoding: the spec's decision D4): CLS turns every pixel off and touches nothing else. -/
def Obligations.ClearTurnsEveryPixelOff : Prop :=
  ∀ s : State, ∃ t, exec .cls s = .next t ∧ (∀ q p, t.fb.pixel q p = false) ∧ t.pc = s.pc + 2 ∧ KeptBut [.fb, .pc] s t

/-- R161, R162 (bit order and operand order: the spec's decision D9; the check of all bytes first: D10): DRW toggles exactly
the pixels under a 1 of the sprite, clipped at the right and bottom edges and started modulo the screen, and `VF` is 1 iff one
of them was on; past the end of memory it raises `OutOfBoundsAccess`. -/
def Obligations.DrawTogglesTheSpritePixels : Prop :=
  ∀ (x y : Reg) (n : RowCount) (s : State),
    (n.val = 0 ∨ s.i.toNat + n.val - 1 ≤ 4095 → ∃ t, exec (.drwVxVyN x y n) s = .next t ∧
      (∀ q p, (SpriteOver s ((s.getV x).toNat % 64) ((s.getV y).toNat % 32) n.val q p →
          t.fb.pixel q p = !s.fb.pixel q p) ∧
        (¬ SpriteOver s ((s.getV x).toNat % 64) ((s.getV y).toNat % 32) n.val q p →
          t.fb.pixel q p = s.fb.pixel q p)) ∧
      ((∃ q p, s.fb.pixel q p = true ∧ SpriteOver s ((s.getV x).toNat % 64) ((s.getV y).toNat % 32) n.val q p) →
        (t.getV VF).toNat = 1) ∧
      ((¬ ∃ q p, s.fb.pixel q p = true ∧ SpriteOver s ((s.getV x).toNat % 64) ((s.getV y).toNat % 32) n.val q p) →
        (t.getV VF).toNat = 0) ∧
      RegsKeptBut [VF] s t ∧ t.pc = s.pc + 2 ∧ KeptBut [.v, .fb, .pc] s t) ∧
    (0 < n.val → s.i.toNat + n.val - 1 > 4095 →
      TakesFault (.drwVxVyN x y n) s .outOfBoundsAccess (max s.i.toNat 4096))

/-- R163, for `X` and `Y` other than 0xF as the rule says (a single draw of the other forms is in
`DrawTogglesTheSpritePixels`): drawing the same sprite twice restores every pixel, and the second draw sets `VF` iff the first
turned a pixel on. -/
def Obligations.DrawingTwiceRestoresTheScreen : Prop :=
  ∀ (x y : Reg) (n : RowCount) (s t : State), x ≠ VF → y ≠ VF → s.fault = .noFault →
    exec (.drwVxVyN x y n) s = .next t → t.fault = .noFault →
    ∃ u, exec (.drwVxVyN x y n) t = .next u ∧ (∀ q p, u.fb.pixel q p = s.fb.pixel q p) ∧
      ((u.getV VF).toNat = 1 ↔ ∃ q p, s.fb.pixel q p = false ∧ t.fb.pixel q p = true) ∧
      ((u.getV VF).toNat = 0 ∨ (u.getV VF).toNat = 1)

/-! ## Timers and keypad -/

/-- R170, R171, R172 (encodings D3, the write of the sound timer D4: the spec's decisions): the timer instructions move one
byte and nothing else. -/
def Obligations.TimerInstructionsMoveOneByte : Prop :=
  ∀ (x : Reg) (s : State),
    (∃ t, exec (.ldVxDT x) s = .next t ∧ t.getV x = s.dt ∧ RegsKeptBut [x] s t ∧ t.pc = s.pc + 2 ∧
      KeptBut [.v, .pc] s t) ∧
    (∃ t, exec (.ldDTVx x) s = .next t ∧ t.dt = s.getV x ∧ t.pc = s.pc + 2 ∧ KeptBut [.dt, .pc] s t) ∧
    ∃ t, exec (.ldSTVx x) s = .next t ∧ t.st = s.getV x ∧ t.pc = s.pc + 2 ∧ KeptBut [.st, .pc] s t

/-- R173, R174, R205 (existence D4, the fault on an index above 15 D13: the spec's decisions): the skips on a key. -/
def Obligations.KeySkipsTestTheLatch : Prop :=
  ∀ (x : Reg) (s : State),
    (∀ k : Key, (s.getV x).toNat = k.val →
      (∃ t, exec (.skpVx x) s = .next t ∧ (s.keys[k.val] = true → t.pc = s.pc + 4) ∧
        (s.keys[k.val] = false → t.pc = s.pc + 2) ∧ KeptBut [.pc] s t) ∧
      ∃ t, exec (.sknpVx x) s = .next t ∧ (s.keys[k.val] = false → t.pc = s.pc + 4) ∧
        (s.keys[k.val] = true → t.pc = s.pc + 2) ∧ KeptBut [.pc] s t) ∧
    ((s.getV x).toNat > 15 → TakesFault (.skpVx x) s .keyIndexError (s.getV x).toNat ∧
      TakesFault (.sknpVx x) s .keyIndexError (s.getV x).toNat)

/-- R175 (the lowest of several keys: the spec's decision D15): LD Vx,K stores the lowest pressed key, and with no key pressed
it is a whole instruction that changes no state at all. -/
def Obligations.WaitForKeyStoresTheLowestKey : Prop :=
  ∀ (x : Reg) (s : State),
    (∀ k : Key, s.keys[k.val] = true → (∀ j : Key, j < k → s.keys[j.val] = false) →
      ∃ t, exec (.ldVxK x) s = .next t ∧ (t.getV x).toNat = k.val ∧ RegsKeptBut [x] s t ∧ t.pc = s.pc + 2 ∧
        KeptBut [.v, .pc] s t) ∧
    ((∀ k : Key, s.keys[k.val] = false) → exec (.ldVxK x) s = .next s)

/-- R212 (atomicity D20, the test before the decrement D21: the spec's decisions): a tick of a running core takes one from each
timer that is not 0 and emits the tone iff `ST` was not 0. -/
def Obligations.TickCountsBothTimersDown : Prop :=
  ∀ s : State, s.halted = false → ∃ t, perform .tick s = .next t ∧ t.dt.toNat = s.dt.toNat - 1 ∧
    t.st.toNat = s.st.toNat - 1 ∧ (s.st.toNat > 0 → s.tickTone = some true) ∧
    (s.st.toNat = 0 → s.tickTone = some false) ∧ KeptBut [.dt, .st] s t

/-- R212, R213 (decision D21): `ST = n` gives exactly `n` tone-on ticks, and the level `tone` is on as long as `ST` is not 0:
of the ticks of a running core with nothing between them, the `k`-th emits tone-on iff `k < n`. -/
def Obligations.SoundTimerGivesItsNumberOfTones : Prop :=
  ∀ (s : State) (k : Nat), s.halted = false →
    (State.tick^[k] s).tickTone = some (decide (k < s.st.toNat)) ∧
    (State.tick^[k] s).tone = decide (k < s.st.toNat)

/-- R235: `DT` grows in a step only if that step is an LD DT,Vx of the CPU. -/
def Obligations.DelayTimerGrowsOnlyByItsWrite : Prop :=
  ∀ s t : State, step s = .next t → s.dt.toNat < t.dt.toNat →
    (s.sched = [] ∨ ∃ rest, s.sched = .step :: rest) ∧ ∃ ir x, fetch s = .ok ir ∧ decode ir = .ok (.ldDTVx x) ∧
      t.dt = s.getV x

/-- R214: a key event of a running core sets one key and nothing else, and of a halted core nothing; a press of a pressed key
and a release of a released one change nothing. -/
def Obligations.KeyEventSetsOneKey : Prop :=
  ∀ (k : Key) (b : Bool) (s : State),
    (s.halted = false → ∃ t, perform (.keyEvent k b) s = .next t ∧ t.keys[k.val] = b ∧
      (∀ j : Key, j ≠ k → t.keys[j.val] = s.keys[j.val]) ∧ KeptBut [.keys] s t) ∧
    (s.halted = true → perform (.keyEvent k b) s = .next s) ∧
    (s.keys[k.val] = b → ∃ t, perform (.keyEvent k b) s = .next t ∧ KeptBut [] s t)

/-- R215: a snapshot is the 2048 pixels as they stand between two steps, and taking it writes nothing. -/
def Obligations.SnapshotReadsAndWritesNothing : Prop :=
  ∀ s : State, perform .snapshot s = .next s ∧ ∀ q p, s.snapshot.pixel q p = s.fb.pixel q p

/-- R220 (decision D32): Stop on a running core sets `STOPPED`, which halts it, and changes nothing else; `FAULT` stays 0. -/
def Obligations.StopHaltsARunningCore : Prop :=
  ∀ s : State, s.halted = false → ∃ t, perform .stop s = .next t ∧ t.stopped = true ∧ t.halted = true ∧
    t.fault = .noFault ∧ KeptBut [.stopped] s t

/-- R230, R35 (the values the document does not state: the spec's decisions D18, D19): Reset puts every field at its value,
whatever it held, in the state `reset` as in a machine that is reset while it runs. -/
def Obligations.ResetPutsEveryFieldAtItsValue : Prop :=
  (ResetFields State.reset ∧ ResetMemory State.reset.mem) ∧
  ∀ s : State, ∃ t, perform (.restart []) s = .next t ∧ ResetFields t ∧ ResetMemory t.mem

/-- R231: an image of at most 3584 bytes stands at 0x200 and up, every other byte and every other field is as Reset leaves it;
a longer one is refused and nothing is loaded (the spec's decision D27). That LoadImage happens in one action with Reset, and
that Reset has therefore put every field at its value where the image is refused, which D27 leaves open, is the MODEL'S choice
(log entry 6). -/
def Obligations.LoadImagePlacesTheBytes : Prop :=
  ∀ (image : List Byte) (s : State), ∃ t, perform (.restart image) s = .next t ∧ ResetFields t ∧
    (image.length ≤ 3584 → (∀ j, j < image.length → t.mem.read (0x200 + j) = image.getD j 0) ∧
      ∀ a, ¬ (0x200 ≤ a ∧ a < 0x200 + image.length) → t.mem.read a = State.reset.mem.read a) ∧
    (image.length > 3584 → ResetMemory t.mem)

/-! ## The machine as a whole -/

/-- THE INVARIANT: whatever agent moves, a step from a state with the invariant gives a state with it. Memory keeps its
canonical form (log entry 1), `pc` stays at most `0x10FE` (R24, R120), a call-stack entry at most 4096 (R122), and what the
fault latch recorded agrees with the machine it stands in (R200, R208). -/
def Obligations.EveryStepKeepsTheInvariant : Prop := ∀ s t : State, s.Inv → step s = .next t → t.Inv

/-- The machine after reset has the invariant. -/
def Obligations.ResetHasTheInvariant : Prop := State.reset.Inv

/-- Which instructions may write what (R37): memory R50, R146, R150; the registers R21, and `VF` as a flag R22; `I` R23; the
stack and `SP` R25; the timers R26, R27; the framebuffer R29. The CPU never writes the keypad latch (R28) or `STOPPED`. The
clauses on `sched` and `rndSamples` are about the MODEL'S own fields (log entries 4 and 3), no rule of the spec. -/
def Obligations.EachPartHasItsWriters : Prop :=
  ∀ (i : Instr) (s t : State), exec i s = .next t →
    t.keys = s.keys ∧ t.stopped = s.stopped ∧ t.sched = s.sched ∧
    (t.mem ≠ s.mem → ∃ x, i = .ldBVx x ∨ i = .ldIV x) ∧
    (t.fb ≠ s.fb → i = .cls ∨ ∃ x y n, i = .drwVxVyN x y n) ∧
    (t.stack ≠ s.stack → ∃ nnn, i = .callNNN nnn) ∧
    (t.sp ≠ s.sp → i = .ret ∨ ∃ nnn, i = .callNNN nnn) ∧
    (t.dt ≠ s.dt → ∃ x, i = .ldDTVx x) ∧ (t.st ≠ s.st → ∃ x, i = .ldSTVx x) ∧
    (t.i ≠ s.i → (∃ nnn, i = .ldINNN nnn) ∨ ∃ x, i = .addIVx x ∨ i = .ldFVx x) ∧
    (t.rndSamples ≠ s.rndSamples → ∃ x nn, i = .rndVxNN x nn) ∧
    (∀ r, t.getV r ≠ s.getV r → destination i = some r ∨ (r = VF ∧ WritesFlag i) ∨ ∃ x, i = .ldVI x)

/-- R22: after an instruction that writes `VF` as a side effect and takes no fault, `VF` holds 0 or 1, but for SHL of `VF`
itself, which may leave 2 (decision D7). -/
def Obligations.FlagIsZeroOrOneAfterAFlagWriter : Prop :=
  ∀ (i : Instr) (s t : State), WritesFlag i → s.fault = .noFault → exec i s = .next t → t.fault = .noFault →
    (t.getV VF).toNat ≤ 1 ∨ ((∃ y, i = .shlVx VF y) ∧ (t.getV VF).toNat = 2)

/-- R26, R27, R216 (the timers are reached only by their three instructions): an instruction that names no timer does not see
the timers: whatever they hold, it does the same to everything else and leaves them as they are. -/
def Obligations.TimersAreUnseenByOtherInstructions : Prop :=
  ∀ (i : Instr) (s : State) (d e : Byte), SeesNoTimer i →
    ∃ t, exec i s = .next t ∧ exec i { s with dt := d, st := e } = .next { t with dt := d, st := e }

/-- R28, R216 (the keypad is reached only by its three instructions): an instruction that tests no key does not see the keypad:
whatever the latch holds, it does the same to everything else and leaves it as it is. -/
def Obligations.KeysAreUnseenByOtherInstructions : Prop :=
  ∀ (i : Instr) (s : State) (ks : Vector Bool 16), SeesNoKey i →
    ∃ t, exec i s = .next t ∧ exec i { s with keys := ks } = .next { t with keys := ks }

/-- R233 (the convention is the spec's decision D32): a running core at a JP to its own address is safe for ever and stays
as it is, as long as no other agent moves. -/
def Obligations.SelfJumpSpinsSafely : Prop :=
  ∀ (s : State) (nnn : Imm12), s.halted = false → s.sched = [] → fetch s = .ok (encode (.jpNNN nnn)) →
    s.pc.toNat = nnn.toNat → (∀ k, Host.Core.run Sys2Proof.core k s = .next s) ∧ ∀ k, SafeRun s k
end

