-- ==== Sys2Proof/Laws/Memory.lean ====
section
/-! SUPPORT. Memory as a sorted list: what a read gives after a write, that every write keeps the canonical form, and that
two memories in canonical form that read alike are one list. -/

namespace Sys2Proof.Machine

theorem Memory.read_cons (b : Nat) (w : Byte) (m : Memory) (a : Nat) :
    Memory.read ((b, w) :: m) a = if a = b then w else m.read a := rfl

@[simp] theorem Memory.read_nil (a : Nat) : Memory.read [] a = resetByte a := rfl

/-- Below every listed address the reset contents are read. -/
theorem Memory.read_below {m : Memory} {a : Nat} (h : ∀ c ∈ m, a < c.1) : m.read a = resetByte a := by
  induction m with
  | nil => rfl
  | cons c m ih =>
    obtain ⟨b, w⟩ := c
    have hb : a < b := h (b, w) (by simp)
    rw [Memory.read_cons, if_neg (by omega)]
    exact ih fun c hc => h c (List.mem_cons_of_mem _ hc)

theorem Memory.read_cell_append (a : Nat) (v : Byte) (m : Memory) (h : ∀ c ∈ m, a < c.1) (q : Nat) :
    Memory.read (Memory.cell a v ++ m) q = if q = a then v else m.read q := by
  unfold Memory.cell
  split
  · next hv =>
    rw [List.nil_append]
    split
    · next hq => rw [hq, Memory.read_below h, hv]
    · rfl
  · rfl

/-- A read after a write, for every address. -/
theorem Memory.read_write {m : Memory} (hm : m.Pairwise fun c d => c.1 < d.1) (a : Nat) (v : Byte) (q : Nat) :
    (m.write a v).read q = if q = a then v else m.read q := by
  induction m with
  | nil => simpa [Memory.write] using Memory.read_cell_append a v [] (by simp) q
  | cons c m ih =>
    obtain ⟨b, w⟩ := c
    obtain ⟨hb, hm'⟩ := List.pairwise_cons.mp hm
    unfold Memory.write
    split
    · next h =>
      refine Memory.read_cell_append a v _ ?_ q
      intro c hc
      rcases List.mem_cons.mp hc with rfl | hc
      · exact h
      · exact Nat.lt_trans h (hb c hc)
    · split
      · next h =>
        subst h
        rw [Memory.read_cell_append a v m hb q, Memory.read_cons]
        split <;> rfl
      · next h1 h2 =>
        rw [Memory.read_cons, Memory.read_cons, ih hm']
        by_cases hqb : q = b
        · rw [if_pos hqb, if_neg (by omega), if_pos hqb]
        · rw [if_neg hqb, if_neg hqb]

theorem Memory.mem_cell {a : Nat} {v : Byte} {c : Host.Cell} (h : c ∈ Memory.cell a v) :
    c = (a, v) ∧ v ≠ resetByte a := by
  unfold Memory.cell at h
  split at h
  · simp at h
  · next hv => exact ⟨by simpa using h, hv⟩

/-- What a written memory lists: the written cell where it is not the reset byte, and cells that were there. -/
theorem Memory.mem_write {m : Memory} {a : Nat} {v : Byte} {c : Host.Cell} (h : c ∈ m.write a v) :
    (c = (a, v) ∧ v ≠ resetByte a) ∨ c ∈ m := by
  induction m with
  | nil => exact .inl (Memory.mem_cell h)
  | cons d m ih =>
    obtain ⟨b, w⟩ := d
    unfold Memory.write at h
    split at h
    · exact (List.mem_append.mp h).imp_left Memory.mem_cell
    · split at h
      · exact (List.mem_append.mp h).imp Memory.mem_cell (List.mem_cons_of_mem _)
      · rcases List.mem_cons.mp h with rfl | h
        · exact .inr (by simp)
        · exact (ih h).imp_right (List.mem_cons_of_mem _)

theorem Memory.pairwise_cell_append {a : Nat} {v : Byte} {m : Memory} (hm : m.Pairwise fun c d => c.1 < d.1)
    (h : ∀ c ∈ m, a < c.1) : (Memory.cell a v ++ m).Pairwise fun c d => c.1 < d.1 := by
  unfold Memory.cell
  split
  · exact hm
  · exact List.pairwise_cons.mpr ⟨h, hm⟩

theorem Memory.pairwise_write {m : Memory} (hm : m.Pairwise fun c d => c.1 < d.1) (a : Nat) (v : Byte) :
    (m.write a v).Pairwise fun c d => c.1 < d.1 := by
  induction m with
  | nil => simpa [Memory.write] using Memory.pairwise_cell_append (a := a) (v := v) hm (by simp)
  | cons d m ih =>
    obtain ⟨b, w⟩ := d
    obtain ⟨hb, hm'⟩ := List.pairwise_cons.mp hm
    unfold Memory.write
    split
    · next h =>
      refine Memory.pairwise_cell_append hm fun c hc => ?_
      rcases List.mem_cons.mp hc with rfl | hc
      · exact h
      · exact Nat.lt_trans h (hb c hc)
    · split
      · next h => exact Memory.pairwise_cell_append hm' (h ▸ hb)
      · next h1 h2 =>
        refine List.pairwise_cons.mpr ⟨fun c hc => ?_, ih hm'⟩
        rcases Memory.mem_write hc with ⟨rfl, _⟩ | hc
        · show b < a
          omega
        · exact hb c hc

/-- A write inside memory keeps the canonical form. -/
theorem Memory.wf_write {m : Memory} (hm : m.wf) {a : Nat} (ha : a < Config.memSize) (v : Byte) :
    (m.write a v).wf := by
  refine ⟨Memory.pairwise_write hm.1 a v, fun c hc => ?_⟩
  rcases Memory.mem_write hc with ⟨rfl, hv⟩ | hc
  · exact ⟨ha, hv⟩
  · exact hm.2 c hc

/-- Writing bytes inside memory keeps the canonical form. -/
theorem Memory.wf_writeAll {m : Memory} (hm : m.wf) {a : Nat} {vs : List Byte}
    (ha : a + vs.length ≤ Config.memSize) : (m.writeAll a vs).wf := by
  induction vs generalizing m a with
  | nil => exact hm
  | cons v vs ih =>
    simp only [List.length_cons] at ha
    exact ih (Memory.wf_write hm (by omega) v) (by omega)

theorem Memory.pairwise_writeAll {m : Memory} (hm : m.Pairwise fun c d => c.1 < d.1) (a : Nat) (vs : List Byte) :
    (m.writeAll a vs).Pairwise fun c d => c.1 < d.1 := by
  induction vs generalizing m a with
  | nil => exact hm
  | cons v vs ih => exact ih (Memory.pairwise_write hm a v) (a + 1)

/-- A read after writing bytes at ascending addresses, for every address. -/
theorem Memory.read_writeAll {m : Memory} (hm : m.Pairwise fun c d => c.1 < d.1) (a : Nat) (vs : List Byte) (q : Nat) :
    (m.writeAll a vs).read q = if a ≤ q ∧ q < a + vs.length then vs.getD (q - a) 0 else m.read q := by
  induction vs generalizing m a with
  | nil => simp [Memory.writeAll]
  | cons v vs ih =>
    rw [Memory.writeAll, ih (Memory.pairwise_write hm a v), Memory.read_write hm]
    simp only [List.length_cons]
    by_cases h1 : q = a
    · subst h1
      rw [if_neg (by omega), if_pos rfl, if_pos (by omega)]
      simp
    · by_cases h2 : a + 1 ≤ q ∧ q < a + 1 + vs.length
      · rw [if_pos h2, if_pos (by omega), show q - a = (q - (a + 1)) + 1 by omega, List.getD_cons_succ]
      · rw [if_neg h2, if_neg h1, if_neg (by omega)]

/-- A listed cell of a canonical memory is what its address reads as. -/
theorem Memory.read_of_mem {m : Memory} (hm : m.Pairwise fun c d => c.1 < d.1) {a : Nat} {v : Byte} (h : (a, v) ∈ m) :
    m.read a = v := by
  induction m with
  | nil => simp at h
  | cons d m ih =>
    obtain ⟨b, w⟩ := d
    obtain ⟨hb, hm'⟩ := List.pairwise_cons.mp hm
    rcases List.mem_cons.mp h with h | h
    · obtain ⟨rfl, rfl⟩ := Prod.mk.inj h
      simp [Memory.read_cons]
    · have := hb _ h
      rw [Memory.read_cons, if_neg (Nat.ne_of_gt this), ih hm' h]

theorem Memory.mem_of_read {m : Memory} {a : Nat} (h : m.read a ≠ resetByte a) : (a, m.read a) ∈ m := by
  induction m with
  | nil => exact absurd rfl h
  | cons d m ih =>
    obtain ⟨b, w⟩ := d
    rw [Memory.read_cons] at h ⊢
    split at h
    · next hab => simp [hab]
    · next hab => rw [if_neg hab]; exact List.mem_cons_of_mem _ (ih h)

theorem Memory.subset_of_read {m n : Memory} (hm : m.wf) (h : ∀ a, m.read a = n.read a) {c : Host.Cell}
    (hc : c ∈ m) : c ∈ n := by
  obtain ⟨a, v⟩ := c
  have hv : m.read a = v := Memory.read_of_mem hm.1 hc
  have hne : n.read a ≠ resetByte a := by rw [← h, hv]; exact (hm.2 _ hc).2
  have := Memory.mem_of_read hne
  rwa [← h, hv] at this

/-- Two memories in canonical form that read alike are one list. -/
theorem Memory.ext_of_wf {m n : Memory} (hm : m.wf) (hn : n.wf) (h : ∀ a, m.read a = n.read a) : m = n := by
  have hlt : ∀ {l : Memory}, l.wf → l.Nodup := fun hl =>
    hl.1.imp fun {c d} hcd he => by subst he; exact Nat.lt_irrefl _ hcd
  have hp : m.Perm n := (List.perm_ext_iff_of_nodup (hlt hm) (hlt hn)).mpr fun c =>
    ⟨fun hc => Memory.subset_of_read hm h hc, fun hc => Memory.subset_of_read hn (fun a => (h a).symm) hc⟩
  refine hp.eq_of_pairwise (le := fun c d => c.1 < d.1) ?_ hm.1 hn.1
  intro a b _ _ h1 h2
  omega

/-- Reset lists nothing, which is canonical. -/
theorem Memory.wf_nil : Memory.wf [] := ⟨List.Pairwise.nil, fun _ h => absurd h List.not_mem_nil⟩

/-- The byte a listed-nowhere address outside the font reads as. -/
theorem resetByte_outside_font {a : Nat} (h : a < 0x50 ∨ 0xA0 ≤ a) : resetByte a = 0 := by
  unfold resetByte
  split
  · next hb =>
    have : 0xA0 ≤ a := by simp [Config.fontBase] at hb; omega
    rw [List.getD_eq_default]
    simp [fontBytes, Config.fontBase]
    omega
  · rfl

end Sys2Proof.Machine
end

