-- ==== Sys2Proof/Laws/Registers.lean ====
section
/-! SUPPORT. What a read of a general register gives after a write (spec/10_state.md R21, R22). -/

namespace Sys2Proof.Machine

/-- `V[q]` after `V[r] <- b`. -/
theorem State.getV_setV (s : State) (r q : Reg) (b : Byte) :
    (s.setV r b).getV q = if q = r then b else s.getV q := by
  simp only [State.getV, State.setV_v, Vector.getElem_set, Fin.ext_iff, eq_comm]

@[simp] theorem State.getV_setV_same (s : State) (r : Reg) (b : Byte) : (s.setV r b).getV r = b := by
  simp [State.getV_setV]

theorem State.getV_setV_other (s : State) {r q : Reg} (b : Byte) (h : q ≠ r) : (s.setV r b).getV q = s.getV q := by
  simp [State.getV_setV, h]

/-- `V[q]` after the flag is written. -/
theorem State.getV_setFlag (s : State) (f : Bool) (q : Reg) :
    (s.setFlag f).getV q = if q = VF then flagByte f else s.getV q := State.getV_setV s VF q _

@[simp] theorem State.getV_setFlag_VF (s : State) (f : Bool) : (s.setFlag f).getV VF = flagByte f := by
  simp [State.getV_setFlag]

theorem State.getV_setFlag_other (s : State) (f : Bool) {q : Reg} (h : q ≠ VF) : (s.setFlag f).getV q = s.getV q := by
  simp [State.getV_setFlag, h]

/-- `V[q]` after all sixteen registers are loaded. -/
@[simp] theorem State.getV_setAllV (s : State) (bs : List Byte) (q : Reg) :
    (s.setAllV bs).getV q = bs.getD q.val 0 := by
  simp [State.getV]

/-- The register file is its sixteen registers. -/
theorem State.v_ext {s t : State} (h : ∀ q, t.getV q = s.getV q) : t.v = s.v := by
  apply Vector.ext
  intro k hk
  exact h ⟨k, hk⟩

/-- The register file as a list of bytes, the form LD [I],V stores (R150). -/
theorem State.v_toList_getD (s : State) (q : Reg) : s.v.toList.getD q.val 0 = s.getV q := by
  simp [State.getV, List.getD_eq_getElem?_getD]

end Sys2Proof.Machine
end

