-- ==== Sys2Proof/Laws/Access.lean ====
section
/-! SUPPORT. What an access to memory answers: the bytes or the written state where the whole range lies in memory, and the
fault of the lowest offending address where it does not (spec/20_memory.md R51 to R53, R63). -/

namespace Sys2Proof.Machine

theorem checkRange_ok {base n : Nat} (h : n = 0 ∨ base + n ≤ 4096) : checkRange base n = .ok () := by
  rw [checkRange, if_neg (by omega)]

theorem checkRange_error {base n : Nat} (hn : 0 < n) (h : 4096 < base + n) :
    checkRange base n = .error (.outOfBoundsAccess (max base 4096)) := by
  rw [checkRange, if_pos (by omega)]

theorem memRead_ok (s : State) {a : Nat} (h : a < 4096) : memRead s a = .ok (s.mem.read a) := by
  rw [memRead, if_neg (by omega)]

theorem memWrite_ok (s : State) {a : Nat} (h : a < 4096) (v : Byte) :
    memWrite s a v = .ok (s.setMem (s.mem.write a v)) := by
  rw [memWrite, if_neg (by omega)]

/-- Bytes read inside memory. -/
theorem readEach_ok (s : State) {a n : Nat} (h : n = 0 ∨ a + n ≤ 4096) :
    readEach s a n = .ok ((List.range n).map fun k => s.mem.read (a + k)) := by
  induction n generalizing a with
  | zero => rfl
  | succ n ih =>
    rw [readEach, memRead_ok s (by omega), ih (by omega)]
    simp only [List.range_succ_eq_map, List.map_cons, List.map_map]
    refine congrArg Except.ok (congrArg₂ _ rfl (List.map_congr_left fun k _ => ?_))
    show s.mem.read (a + 1 + k) = s.mem.read (a + (k + 1))
    congr 1
    omega

/-- Bytes written inside memory. -/
theorem writeEach_ok (s : State) {a : Nat} {vs : List Byte} (h : vs = [] ∨ a + vs.length ≤ 4096) :
    writeEach s a vs = .ok (s.setMem (s.mem.writeAll a vs)) := by
  induction vs generalizing s a with
  | nil => rfl
  | cons v vs ih =>
    have h' : a + (vs.length + 1) ≤ 4096 := by simpa using h
    rw [writeEach, memWrite_ok s (by omega)]
    have := ih (s := s.setMem (s.mem.write a v)) (a := a + 1) (.inr (by omega))
    exact this

/-- The one thing a multi-byte read can answer where its range lies in memory. -/
theorem readBytes_ok (s : State) {base n : Nat} (h : n = 0 ∨ base + n ≤ 4096) :
    readBytes s base n = .ok ((List.range n).map fun k => s.mem.read (base + k)) := by
  rw [readBytes, checkRange_ok h]
  exact readEach_ok s h

theorem readBytes_error (s : State) {base n : Nat} (hn : 0 < n) (h : 4096 < base + n) :
    readBytes s base n = .error (.outOfBoundsAccess (max base 4096)) := by
  rw [readBytes, checkRange_error hn h]
  rfl

/-- The one thing a multi-byte write can answer where its range lies in memory. -/
theorem writeBytes_ok (s : State) {base : Nat} {vs : List Byte} (h : base + vs.length ≤ 4096) :
    writeBytes s base vs = .ok (s.setMem (s.mem.writeAll base vs)) := by
  rw [writeBytes, checkRange_ok (.inr h)]
  exact writeEach_ok s (.inr h)

theorem writeBytes_error (s : State) {base : Nat} {vs : List Byte} (hn : vs ≠ []) (h : 4096 < base + vs.length) :
    writeBytes s base vs = .error (.outOfBoundsAccess (max base 4096)) := by
  rw [writeBytes, checkRange_error (List.length_pos_iff.mpr hn) h]
  rfl

/-- The fetch where both bytes lie in memory (R53). -/
theorem fetch_ok {s : State} (h : s.pc.toNat < 4095) :
    fetch s = .ok (wordOfBytes (s.mem.read s.pc.toNat) (s.mem.read (s.pc.toNat + 1))) := by
  rw [fetch, checkRange_ok (.inr (by omega)), memRead_ok s (by omega), memRead_ok s (by omega)]
  rfl

theorem fetch_error {s : State} (h : 4095 ≤ s.pc.toNat) :
    fetch s = .error (.outOfBoundsAccess (max s.pc.toNat 4096)) := by
  rw [fetch, checkRange_error (by omega) (by omega)]
  rfl

/-- A fetch that answers a word read it at a `pc` of at most 4094. -/
theorem pc_lt_of_fetch {s : State} {ir : Word} (h : fetch s = .ok ir) : s.pc.toNat < 4095 := by
  by_contra hc
  rw [fetch_error (by omega)] at h
  cases h

/-- The fetch depends on `pc` and memory alone. -/
theorem fetch_congr {s t : State} (hpc : t.pc = s.pc) (hm : t.mem = s.mem) : fetch t = fetch s := by
  unfold fetch memRead
  rw [hpc, hm]

/-! ## The call stack and the keypad -/

theorem pushReturn_ok {s : State} (h : s.sp.val < 16) :
    pushReturn s = .ok { s with stack := s.stack.set s.sp.val (s.pc + 2), sp := ⟨s.sp.val + 1, by omega⟩ } := by
  rw [pushReturn, dif_pos h]

theorem pushReturn_error {s : State} (h : s.sp.val = 16) : pushReturn s = .error (.stackOverflow s.pc) := by
  rw [pushReturn, dif_neg (by omega)]

theorem popReturn_ok {s : State} (h : 0 < s.sp.val) :
    popReturn s = .ok { s with sp := ⟨s.sp.val - 1, by omega⟩, pc := s.stack[s.sp.val - 1] } := by
  rw [popReturn, dif_pos h]

theorem popReturn_error {s : State} (h : s.sp.val = 0) : popReturn s = .error (.stackUnderflow s.pc) := by
  rw [popReturn, dif_neg (by omega)]

theorem readKey_ok {s : State} {b : Byte} (h : b.toNat < 16) : readKey s b = .ok s.keys[b.toNat] := by
  rw [readKey, dif_pos h]

theorem readKey_error {s : State} {b : Byte} (h : 16 ≤ b.toNat) : readKey s b = .error (.keyIndexError b) := by
  rw [readKey, dif_neg (by omega)]

/-! ## The end of a step -/

@[simp] theorem finish_ok (s t : State) : finish s (.ok t) = .next t := rfl

@[simp] theorem finish_error (s : State) (f : Fault) : finish s (.error f) = .next (s.latch f) := rfl

/-- Everything `finish` can answer: the state the step made, or the state before it with the fault latched (R208). -/
theorem finish_cases {s t : State} {r : Except Fault State} (h : finish s r = .next t) :
    r = .ok t ∨ ∃ f, r = .error f ∧ t = s.latch f := by
  cases r with
  | ok u => exact .inl (by rw [finish_ok] at h; injection h with h; rw [h])
  | error f => exact .inr ⟨f, rfl, by rw [finish_error] at h; injection h with h; exact h.symm⟩

/-- The lowest pressed key is pressed, and every key below it is not (R175). -/
theorem lowestKey_some {keys : Vector Bool 16} {k : Key} (h : lowestKey keys = some k) :
    keys[k.val] = true ∧ ∀ j : Key, j < k → keys[j.val] = false := by
  unfold lowestKey at h
  rw [List.find?_eq_some_iff_append] at h
  obtain ⟨hk, as, bs, hab, hnot⟩ := h
  refine ⟨hk, fun j hj => ?_⟩
  have hsort : (as ++ k :: bs).Pairwise (· < ·) := hab ▸ List.pairwise_lt_finRange 16
  have hmem : j ∈ as ++ k :: bs := hab ▸ List.mem_finRange j
  rcases List.mem_append.mp hmem with hm | hm
  · simpa using hnot j hm
  · rcases List.mem_cons.mp hm with rfl | hm
    · exact absurd hj (lt_irrefl _)
    · have := (List.pairwise_cons.mp (List.pairwise_append.mp hsort).2.1).1 j hm
      exact absurd hj (lt_asymm this)

theorem lowestKey_none {keys : Vector Bool 16} : lowestKey keys = none ↔ ∀ k : Key, keys[k.val] = false := by
  simp [lowestKey, List.find?_eq_none]

end Sys2Proof.Machine
end

