-- ==== Sys2Proof/Laws/Draw.lean ====
section
/-! SUPPORT. What the drawing loop leaves in each pixel, and when it reports a collision, in closed form
(spec/43_display.md R161, R162). A pixel is toggled at most once, so a collision is a covered pixel that was on before. -/

namespace Sys2Proof.Machine

theorem FrameBuffer.pixel_toggle (f : FrameBuffer) (y q : Fin 32) (x p : Fin 64) :
    (f.toggle y x).pixel q p = if q = y ∧ p = x then !f.pixel y x else f.pixel q p := by
  simp only [FrameBuffer.pixel, FrameBuffer.toggle, Vector.getElem_set]
  by_cases hq : y.val = q.val
  · have hq' : q = y := Fin.ext hq.symm
    subst hq'
    by_cases hp : x.val = p.val
    · have hp' : p = x := Fin.ext hp.symm
      subst hp'
      simp
    · have hp' : p ≠ x := fun h => hp (by rw [h])
      simp [hp, hp']
  · have hq' : q ≠ y := fun h => hq (by rw [h])
    simp [hq, hq']

@[simp] theorem FrameBuffer.pixel_clear (q : Fin 32) (p : Fin 64) : FrameBuffer.clear.pixel q p = false := by
  simp [FrameBuffer.pixel, FrameBuffer.clear]

/-- The framebuffer is its pixels. -/
theorem FrameBuffer.ext_pixel {f g : FrameBuffer} (h : ∀ q p, f.pixel q p = g.pixel q p) : f = g := by
  apply Vector.ext
  intro q hq
  apply Vector.ext
  intro p hp
  exact h ⟨q, hq⟩ ⟨p, hp⟩

/-- The first `k` columns of the sprite byte `b`, started at column `x0`, cover column `p`. -/
def rowCovers (b : Byte) (x0 k p : Nat) : Bool := decide (x0 ≤ p ∧ p < x0 + k) && spriteBit b (p - x0)

theorem rowCovers_zero (b : Byte) (x0 p : Nat) : rowCovers b x0 0 p = false := by
  simp [rowCovers]

theorem rowCovers_succ_other (b : Byte) {x0 k p : Nat} (h : p ≠ x0 + k) :
    rowCovers b x0 (k + 1) p = rowCovers b x0 k p := by
  have : (x0 ≤ p ∧ p < x0 + (k + 1)) ↔ (x0 ≤ p ∧ p < x0 + k) := by omega
  simp [rowCovers, this]

theorem rowCovers_succ_same (b : Byte) (x0 k : Nat) : rowCovers b x0 (k + 1) (x0 + k) = spriteBit b k := by
  have h1 : x0 ≤ x0 + k ∧ x0 + k < x0 + (k + 1) := by omega
  rw [rowCovers, decide_eq_true h1, Bool.true_and]
  congr 1
  omega

theorem rowCovers_end (b : Byte) (x0 k : Nat) : rowCovers b x0 k (x0 + k) = false := by
  simp [rowCovers]

/-- The first `k` columns of one row: every pixel, and the collision. -/
theorem Canvas.foldl_drawColumn (b : Byte) (x0 : Nat) (y : Fin 32) (c : Canvas) (k : Nat) :
    (∀ q p, ((List.range k).foldl (Canvas.drawColumn b x0 y) c).fb.pixel q p =
      (c.fb.pixel q p ^^ (decide (q = y) && rowCovers b x0 k p.val))) ∧
    (((List.range k).foldl (Canvas.drawColumn b x0 y) c).hit = true ↔
      c.hit = true ∨ ∃ p : Fin 64, c.fb.pixel y p = true ∧ rowCovers b x0 k p.val = true) := by
  induction k with
  | zero => simp [rowCovers_zero]
  | succ k ih =>
    obtain ⟨ihp, ihh⟩ := ih
    rw [List.range_succ, List.foldl_append, List.foldl_cons, List.foldl_nil]
    generalize (List.range k).foldl (Canvas.drawColumn b x0 y) c = d at ihp ihh
    unfold Canvas.drawColumn
    have hskip : (x0 + k < 64 → spriteBit b k = false) →
        ∀ p : Fin 64, rowCovers b x0 (k + 1) p.val = rowCovers b x0 k p.val := by
      intro hb p
      by_cases hp : p.val = x0 + k
      · rw [hp, rowCovers_succ_same, rowCovers_end, hb (hp ▸ p.isLt)]
      · exact rowCovers_succ_other b hp
    by_cases hx : x0 + k < 64
    · rw [dif_pos hx]
      by_cases hb : spriteBit b k = true
      · rw [if_pos hb]
        have hlast : d.fb.pixel y ⟨x0 + k, hx⟩ = c.fb.pixel y ⟨x0 + k, hx⟩ := by
          rw [ihp, rowCovers_end]
          simp
        constructor
        · intro q p
          show (d.fb.toggle y ⟨x0 + k, hx⟩).pixel q p = _
          rw [FrameBuffer.pixel_toggle]
          by_cases hp : p = ⟨x0 + k, hx⟩
          · subst hp
            by_cases hq : q = y
            · subst hq
              rw [if_pos ⟨rfl, rfl⟩, hlast, rowCovers_succ_same, hb]
              simp
            · rw [if_neg (fun h => hq h.1), ihp]
              simp [hq]
          · rw [if_neg (fun h => hp h.2), ihp, rowCovers_succ_other b (fun h => hp (Fin.ext h))]
        · show (d.hit || d.fb.pixel y ⟨x0 + k, hx⟩) = true ↔ _
          rw [hlast, Bool.or_eq_true, ihh, or_assoc]
          refine or_congr_right ⟨?_, ?_⟩
          · rintro (⟨p, h1, h2⟩ | h)
            · refine ⟨p, h1, ?_⟩
              by_cases hp : p.val = x0 + k
              · rw [hp, rowCovers_succ_same, hb]
              · rw [rowCovers_succ_other b hp, h2]
            · exact ⟨_, h, by rw [rowCovers_succ_same, hb]⟩
          · rintro ⟨p, h1, h2⟩
            by_cases hp : p.val = x0 + k
            · have : p = ⟨x0 + k, hx⟩ := Fin.ext hp
              exact .inr (this ▸ h1)
            · exact .inl ⟨p, h1, rowCovers_succ_other b hp ▸ h2⟩
      · rw [if_neg hb]
        have := hskip fun _ => by simpa using hb
        simp only [this]
        exact ⟨ihp, ihh⟩
    · rw [dif_neg hx]
      have := hskip fun h => absurd h hx
      simp only [this]
      exact ⟨ihp, ihh⟩

/-- One sprite row: every pixel, and the collision; a row past the bottom edge draws nothing. -/
theorem Canvas.drawRow_spec (b : Byte) (x0 y : Nat) (c : Canvas) :
    (∀ q p, (c.drawRow b x0 y).fb.pixel q p =
      (c.fb.pixel q p ^^ (decide (q.val = y) && rowCovers b x0 8 p.val))) ∧
    ((c.drawRow b x0 y).hit = true ↔
      c.hit = true ∨ ∃ (q : Fin 32) (p : Fin 64), q.val = y ∧ c.fb.pixel q p = true ∧ rowCovers b x0 8 p.val = true) := by
  unfold Canvas.drawRow
  by_cases hy : y < 32
  · rw [dif_pos hy]
    obtain ⟨h1, h2⟩ := Canvas.foldl_drawColumn b x0 ⟨y, hy⟩ c 8
    have hq : ∀ q : Fin 32, (q = ⟨y, hy⟩) ↔ q.val = y := fun q => Fin.ext_iff
    simp only [hq] at h1
    refine ⟨h1, h2.trans (or_congr_right ?_)⟩
    constructor
    · rintro ⟨p, hp, hc⟩
      exact ⟨⟨y, hy⟩, p, rfl, hp, hc⟩
    · rintro ⟨q, p, hqy, hp, hc⟩
      exact ⟨p, (hq q).mpr hqy ▸ hp, hc⟩
  · rw [dif_neg hy]
    have hne : ∀ q : Fin 32, q.val ≠ y := fun q h => hy (h ▸ q.isLt)
    constructor
    · intro q p
      simp [hne q]
    · constructor
      · exact .inl
      · rintro (h | ⟨q, _, hqy, _⟩)
        · exact h
        · exact absurd hqy (hne q)

/-- The sprite `bs` started at column `x0` of row `y0` covers the pixel in row `q`, column `p`. -/
def spriteCovers (bs : List Byte) (x0 y0 q p : Nat) : Bool :=
  decide (y0 ≤ q ∧ q < y0 + bs.length) && rowCovers (bs.getD (q - y0) 0) x0 8 p

theorem spriteCovers_nil (x0 y0 q p : Nat) : spriteCovers [] x0 y0 q p = false := by
  simp [spriteCovers]

theorem spriteCovers_cons (b : Byte) (bs : List Byte) (x0 y0 q p : Nat) :
    spriteCovers (b :: bs) x0 y0 q p = if q = y0 then rowCovers b x0 8 p else spriteCovers bs x0 (y0 + 1) q p := by
  unfold spriteCovers
  by_cases hq : q = y0
  · subst hq
    simp
  · rw [if_neg hq]
    have h1 : (y0 ≤ q ∧ q < y0 + (b :: bs).length) ↔ (y0 + 1 ≤ q ∧ q < y0 + 1 + bs.length) := by
      rw [List.length_cons]
      omega
    by_cases h2 : y0 + 1 ≤ q ∧ q < y0 + 1 + bs.length
    · have h3 : q - y0 = q - (y0 + 1) + 1 := by omega
      simp only [h1, h3, List.getD_cons_succ]
    · rw [decide_eq_false h2, decide_eq_false (mt h1.mp h2), Bool.false_and, Bool.false_and]

/-- The whole sprite: every pixel, and the collision. -/
theorem Canvas.drawRows_spec (x0 : Nat) (bs : List Byte) (y0 : Nat) (c : Canvas) :
    (∀ q p, (c.drawRows x0 y0 bs).fb.pixel q p = (c.fb.pixel q p ^^ spriteCovers bs x0 y0 q.val p.val)) ∧
    ((c.drawRows x0 y0 bs).hit = true ↔
      c.hit = true ∨ ∃ (q : Fin 32) (p : Fin 64), c.fb.pixel q p = true ∧ spriteCovers bs x0 y0 q.val p.val = true) := by
  induction bs generalizing y0 c with
  | nil => simp [Canvas.drawRows, spriteCovers_nil]
  | cons b bs ih =>
    obtain ⟨hp1, hh1⟩ := Canvas.drawRow_spec b x0 y0 c
    obtain ⟨hp2, hh2⟩ := ih (y0 + 1) (c.drawRow b x0 y0)
    have hlow : ∀ p, spriteCovers bs x0 (y0 + 1) y0 p = false := fun p => by
      simp [spriteCovers]
    unfold Canvas.drawRows
    constructor
    · intro q p
      rw [hp2, hp1, spriteCovers_cons]
      by_cases hq : q.val = y0
      · simp [hq, hlow]
      · simp [hq]
    · rw [hh2, hh1, or_assoc]
      refine or_congr_right ⟨?_, ?_⟩
      · rintro (⟨q, p, hq, hon, hc⟩ | ⟨q, p, hon, hc⟩)
        · exact ⟨q, p, hon, by rw [spriteCovers_cons, if_pos hq, hc]⟩
        · by_cases hq : q.val = y0
          · rw [hq, hlow] at hc
            cases hc
          · refine ⟨q, p, ?_, by rw [spriteCovers_cons, if_neg hq, hc]⟩
            rw [hp1] at hon
            simpa [hq] using hon
      · rintro ⟨q, p, hon, hc⟩
        rw [spriteCovers_cons] at hc
        split at hc
        · next hq => exact .inl ⟨q, p, hq, hon, hc⟩
        · next hq =>
          refine .inr ⟨q, p, ?_, hc⟩
          rw [hp1]
          simpa [hq] using hon

end Sys2Proof.Machine
end

