-- ==== Sys2Proof/Laws/Step.lean ====
section
/-! SUPPORT. What the range operations, the CPU's step and the host's actions can do, said once each. -/

namespace Sys2Proof.Machine

/-! ## Range operations, backwards -/

theorem writeBytes_cases {s t : State} {base : Nat} {vs : List Byte} (hn : vs ≠ [])
    (h : writeBytes s base vs = .ok t) : base + vs.length ≤ 4096 ∧ t = s.setMem (s.mem.writeAll base vs) := by
  by_cases hb : base + vs.length ≤ 4096
  · rw [writeBytes_ok s hb] at h
    cases h
    exact ⟨hb, rfl⟩
  · rw [writeBytes_error s hn (by omega)] at h
    cases h

theorem readBytes_cases {s : State} {base n : Nat} {bs : List Byte} (h : readBytes s base n = .ok bs) :
    (n = 0 ∨ base + n ≤ 4096) ∧ bs = (List.range n).map fun k => s.mem.read (base + k) := by
  by_cases hb : n = 0 ∨ base + n ≤ 4096
  · rw [readBytes_ok s hb] at h
    cases h
    exact ⟨hb, rfl⟩
  · rw [readBytes_error s (by omega) (by omega)] at h
    cases h

theorem pushReturn_cases {s t : State} (h : pushReturn s = .ok t) :
    ∃ hs : s.sp.val < 16,
      t = { s with stack := s.stack.set s.sp.val (s.pc + 2), sp := ⟨s.sp.val + 1, by omega⟩ } := by
  by_cases hs : s.sp.val < 16
  · rw [pushReturn_ok hs] at h
    cases h
    exact ⟨hs, rfl⟩
  · rw [pushReturn_error (by omega)] at h
    cases h

theorem popReturn_cases {s t : State} (h : popReturn s = .ok t) :
    ∃ _ : 0 < s.sp.val, t = { s with sp := ⟨s.sp.val - 1, by omega⟩, pc := s.stack[s.sp.val - 1] } := by
  by_cases hs : 0 < s.sp.val
  · rw [popReturn_ok hs] at h
    cases h
    exact ⟨hs, rfl⟩
  · rw [popReturn_error (by omega)] at h
    cases h

theorem readKey_cases {s : State} {b : Byte} {d : Bool} (h : readKey s b = .ok d) :
    ∃ hb : b.toNat < 16, d = s.keys[b.toNat] := by
  by_cases hb : b.toNat < 16
  · rw [readKey_ok hb] at h
    cases h
    exact ⟨hb, rfl⟩
  · rw [readKey_error (by omega)] at h
    cases h

/-! ## Halting (R210) -/

theorem State.halted_iff {s : State} : s.halted = true ↔ s.fault ≠ .noFault ∨ s.stopped = true := by
  simp [State.halted]

theorem State.running_iff {s : State} : s.halted = false ↔ s.fault = .noFault ∧ s.stopped = false := by
  simp [State.halted]

/-! ## The CPU's step (R11) -/

theorem cpuStep_halted {s : State} (h : s.halted = true) : cpuStep s = .next s := by
  simp [cpuStep, h]

theorem cpuStep_fetch_error {s : State} {f : Fault} (h : s.halted = false) (hf : fetch s = .error f) :
    cpuStep s = .next (s.latch f) := by
  simp [cpuStep, h, hf, raise]

theorem cpuStep_decode_error {s : State} {ir : Word} {e : Illegal} (h : s.halted = false) (hf : fetch s = .ok ir)
    (hd : decode ir = .error e) : cpuStep s = .next (s.latch (.decodeError ir)) := by
  simp [cpuStep, h, hf, hd, raise]

theorem cpuStep_exec {s : State} {ir : Word} {i : Instr} (h : s.halted = false) (hf : fetch s = .ok ir)
    (hd : decode ir = .ok i) : cpuStep s = exec i s := by
  simp [cpuStep, h, hf, hd]

/-- Everything a CPU step can do. -/
theorem cpuStep_cases {s t : State} (h : cpuStep s = .next t) :
    (s.halted = true ∧ t = s) ∨
    (s.halted = false ∧ ∃ f, fetch s = .error f ∧ t = s.latch f) ∨
    (s.halted = false ∧ ∃ ir e, fetch s = .ok ir ∧ decode ir = .error e ∧ t = s.latch (.decodeError ir)) ∨
    (s.halted = false ∧ ∃ ir i, fetch s = .ok ir ∧ decode ir = .ok i ∧ exec i s = .next t) := by
  cases hh : s.halted with
  | true =>
    rw [cpuStep_halted hh] at h
    cases h
    exact .inl ⟨rfl, rfl⟩
  | false =>
    cases hf : fetch s with
    | error f =>
      rw [cpuStep_fetch_error hh hf] at h
      cases h
      exact .inr (.inl ⟨rfl, f, rfl, rfl⟩)
    | ok ir =>
      cases hd : decode ir with
      | error e =>
        rw [cpuStep_decode_error hh hf hd] at h
        cases h
        exact .inr (.inr (.inl ⟨rfl, ir, e, rfl, hd, rfl⟩))
      | ok i =>
        rw [cpuStep_exec hh hf hd] at h
        exact .inr (.inr (.inr ⟨rfl, ir, i, rfl, hd, h⟩))

theorem step_unscheduled {s : State} (h : s.sched = []) : step s = cpuStep s := by
  simp [step, h]

theorem step_scheduled {s : State} {a : Action} {rest : List Action} (h : s.sched = a :: rest) :
    step s = perform a { s with sched := rest } := by
  simp [step, h]

/-! ## Reset and the loader (R230, R231) -/

theorem State.restart_fits {s : State} {image : List Byte} (h : image.length ≤ 3584) :
    s.restart image = { State.reset with
      mem := Memory.writeAll [] 0x200 image, rndSamples := s.rndSamples, sched := s.sched } := by
  have h' : image.length ≤ Config.maxImage := h
  simp only [State.restart, loadImage, if_pos h']
  rfl

theorem State.restart_refused {s : State} {image : List Byte} (h : 3584 < image.length) :
    s.restart image = { State.reset with rndSamples := s.rndSamples, sched := s.sched } := by
  have h' : ¬ image.length ≤ Config.maxImage := Nat.not_le.mpr h
  simp only [State.restart, loadImage, if_neg h']
  rfl

theorem State.restart_mem_wf (s : State) (image : List Byte) : (s.restart image).mem.wf := by
  by_cases h : image.length ≤ 3584
  · rw [State.restart_fits h]
    exact Memory.wf_writeAll Memory.wf_nil (Nat.add_le_add_left h 0x200)
  · rw [State.restart_refused (Nat.not_le.mp h)]
    exact Memory.wf_nil

end Sys2Proof.Machine
end

