-- ==== Sys2Proof/Tests/Slice0.lean ====
section
/-! SUPPORT. Tests of the model, one step each, their expected results from the vectors of spec/95_test_vectors.md (the id of a
vector stands in the docstring) or from the rule named; the refusals of WellFormed; and, for every statement with hypotheses,
a witness that meets them. -/

namespace Sys2Proof.Tests

open Sys2Proof.Machine Sys2Proof.Claims

set_option maxRecDepth 20000

/-! ## WellFormed -/

theorem test_wellFormed_refuses_offset_jump_of_another_register : Instr.wellFormed (.jpVxNNN 4 0x345) = false := by decide
theorem test_wellFormed_accepts_offset_jump_of_its_register : Instr.wellFormed (.jpVxNNN 3 0x345) = true := by decide

/-! ## Decoding: for every constructor a word written out from its row of spec/30_encoding.md R74 -/

/-- The word decodes to the instruction, and the table's numbering gives the same. -/
def Reads (w : Word) (i : Instr) : Prop := decode w = .ok i ∧ decodeTableWord 16 w.toNat = some i

theorem test_decode_family_0 : Reads 0x00E0 .cls ∧ Reads 0x00EE .ret := ⟨⟨rfl, rfl⟩, rfl, rfl⟩
theorem test_decode_jumps : Reads 0x1ABC (.jpNNN 0xABC) ∧ Reads 0x2F00 (.callNNN 0xF00) ∧
    Reads 0xB345 (.jpVxNNN 3 0x345) := ⟨⟨rfl, rfl⟩, ⟨rfl, rfl⟩, rfl, rfl⟩
theorem test_decode_skips : Reads 0x3A7F (.seVxNN 0xA 0x7F) ∧ Reads 0x4A7F (.sneVxNN 0xA 0x7F) ∧
    Reads 0x5AB0 (.seVxVy 0xA 0xB) ∧ Reads 0x9AB0 (.sneVxVy 0xA 0xB) :=
  ⟨⟨rfl, rfl⟩, ⟨rfl, rfl⟩, ⟨rfl, rfl⟩, rfl, rfl⟩
theorem test_decode_immediates : Reads 0x6A2B (.ldVxNN 0xA 0x2B) ∧ Reads 0x7305 (.addVxNN 3 5) ∧
    Reads 0xC30F (.rndVxNN 3 0x0F) ∧ Reads 0xA300 (.ldINNN 0x300) := ⟨⟨rfl, rfl⟩, ⟨rfl, rfl⟩, ⟨rfl, rfl⟩, rfl, rfl⟩
theorem test_decode_family_8_low : Reads 0x8AB0 (.ldVxVy 0xA 0xB) ∧ Reads 0x8AB1 (.orVxVy 0xA 0xB) ∧
    Reads 0x8AB2 (.andVxVy 0xA 0xB) ∧ Reads 0x8AB3 (.xorVxVy 0xA 0xB) ∧ Reads 0x8AB4 (.addVxVy 0xA 0xB) :=
  ⟨⟨rfl, rfl⟩, ⟨rfl, rfl⟩, ⟨rfl, rfl⟩, ⟨rfl, rfl⟩, rfl, rfl⟩
theorem test_decode_family_8_high : Reads 0x8AB5 (.subVxVy 0xA 0xB) ∧ Reads 0x8AB6 (.shrVx 0xA 0xB) ∧
    Reads 0x8AB7 (.subnVxVy 0xA 0xB) ∧ Reads 0x8ABE (.shlVx 0xA 0xB) :=
  ⟨⟨rfl, rfl⟩, ⟨rfl, rfl⟩, ⟨rfl, rfl⟩, rfl, rfl⟩
theorem test_decode_display_and_keys : Reads 0xD12F (.drwVxVyN 1 2 15) ∧ Reads 0xE19E (.skpVx 1) ∧
    Reads 0xE1A1 (.sknpVx 1) ∧ Reads 0xF30A (.ldVxK 3) := ⟨⟨rfl, rfl⟩, ⟨rfl, rfl⟩, ⟨rfl, rfl⟩, rfl, rfl⟩
theorem test_decode_timers : Reads 0xF507 (.ldVxDT 5) ∧ Reads 0xF015 (.ldDTVx 0) ∧ Reads 0xF118 (.ldSTVx 1) :=
  ⟨⟨rfl, rfl⟩, ⟨rfl, rfl⟩, rfl, rfl⟩
theorem test_decode_memory : Reads 0xF31E (.addIVx 3) ∧ Reads 0xF029 (.ldFVx 0) ∧ Reads 0xF033 (.ldBVx 0) ∧
    Reads 0xFF55 (.ldIV 15) ∧ Reads 0xF365 (.ldVI 3) := ⟨⟨rfl, rfl⟩, ⟨rfl, rfl⟩, ⟨rfl, rfl⟩, ⟨rfl, rfl⟩, rfl, rfl⟩
theorem test_decode_bytes_high_first : decodeBytes [0x12, 0x34, 0x56] = .ok (.jpNNN 0x234, [0x56]) := rfl
theorem test_decode_bytes_truncated : decodeBytes [0x12] = .error .truncated := rfl

/-! ## One step -/

/-- After reset, with the word at 0x200. -/
def start (w : Word) : State := State.reset.withFetchWord 16 w.toNat

/-- The next step answers a next state of which the test holds. -/
def after (s : State) (p : State → Bool) : Bool :=
  match step s with
  | .next t => p t
  | .fault _ => false
  | .refused _ => false

/-- The bytes at `a` and up. -/
def bytesAt (s : State) (a n : Nat) : List Nat := (List.range n).map fun k => (s.mem.read (a + k)).toNat

/-- The rows of the framebuffer as 64-bit numbers, column 0 the most significant bit. -/
def rows (s : State) : List Nat :=
  s.fb.toList.map fun row => row.toList.foldl (fun n on => 2 * n + if on then 1 else 0) 0

/-- B1. -/
theorem test_jp : after (start 0x1234) (fun t => t.pc == 0x234) = true := by decide
/-- B8, B9. -/
theorem test_jp_offset : after ((start 0xB2F0).setV 2 0x10 |>.setV 0 0xFF) (fun t => t.pc == 0x300) = true := by decide
/-- B10. -/
theorem test_jp_offset_not_reduced : after ((start 0xBFFF).setV VF 0xFF) (fun t => t.pc == 0x10FE) = true := by decide
/-- B3. -/
theorem test_call : after (start 0x220C) (fun t => t.stack[0] == 0x202 && t.sp == 1 && t.pc == 0x20C) = true := by decide
/-- B5. -/
theorem test_call_full : after { start 0x2400 with sp := 16 }
    (fun t => t.fault == .stackOverflow && t.faultInfo == 0x200 && t.sp == 16 && t.pc == 0x200) = true := by decide
/-- B6. -/
theorem test_ret : after { start 0x00EE with sp := 1, stack := (Vector.replicate 16 0).set 0 0x208 }
    (fun t => t.sp == 0 && t.pc == 0x208 && t.stack[0] == 0x208) = true := by decide
/-- B7. -/
theorem test_ret_empty : after (start 0x00EE)
    (fun t => t.fault == .stackUnderflow && t.faultInfo == 0x200 && t.pc == 0x200) = true := by decide
/-- B11, B12. -/
theorem test_se_immediate : after (start 0x3000) (fun t => t.pc == 0x204) = true ∧
    after ((start 0x3000).setV 0 1) (fun t => t.pc == 0x202) = true := by decide
/-- B13, B14. -/
theorem test_sne_immediate : after ((start 0x4511).setV 5 0x10) (fun t => t.pc == 0x204) = true ∧
    after ((start 0x4511).setV 5 0x11) (fun t => t.pc == 0x202) = true := by decide
/-- B15, B16. -/
theorem test_se_registers : after ((start 0x5120).setV 1 7 |>.setV 2 7) (fun t => t.pc == 0x204) = true ∧
    after ((start 0x5120).setV 1 7 |>.setV 2 8) (fun t => t.pc == 0x202) = true := by decide
/-- B18, B19. -/
theorem test_sne_registers : after ((start 0x9120).setV 1 7 |>.setV 2 8) (fun t => t.pc == 0x204) = true ∧
    after ((start 0x9120).setV 1 7 |>.setV 2 7) (fun t => t.pc == 0x202) = true := by decide
/-- A1. -/
theorem test_ld_immediate : after (start 0x6A2B) (fun t => t.getV 10 == 0x2B && t.pc == 0x202) = true := by decide
/-- A3. -/
theorem test_add_immediate_wraps : after ((start 0x7305).setV 3 0xFE) (fun t => t.getV 3 == 3 && t.getV VF == 0) = true := by
  decide
/-- A5. -/
theorem test_add_immediate_to_flag : after ((start 0x7F02).setV VF 0xFF) (fun t => t.getV VF == 1) = true := by decide
/-- A6. -/
theorem test_ld_register : after ((start 0x8120).setV 2 0x77) (fun t => t.getV 1 == 0x77 && t.getV 2 == 0x77) = true := by decide
/-- A7. -/
theorem test_or : after ((start 0x8011).setV 0 0xF0 |>.setV 1 0x0F |>.setV VF 1)
    (fun t => t.getV 0 == 0xFF && t.getV VF == 1) = true := by decide
/-- A8. -/
theorem test_and : after ((start 0x8012).setV 0 0xF3 |>.setV 1 0x3C |>.setV VF 1)
    (fun t => t.getV 0 == 0x30 && t.getV VF == 1) = true := by decide
/-- A9. -/
theorem test_xor : after ((start 0x8013).setV 0 0xFF |>.setV 1 0x0F |>.setV VF 1)
    (fun t => t.getV 0 == 0xF0 && t.getV VF == 1) = true := by decide
/-- A11, A12. -/
theorem test_add_carry : after ((start 0x8124).setV 1 200 |>.setV 2 100) (fun t => t.getV 1 == 44 && t.getV VF == 1) = true ∧
    after ((start 0x8124).setV 1 100 |>.setV 2 155 |>.setV VF 1) (fun t => t.getV 1 == 255 && t.getV VF == 0) = true := by
  decide
/-- A15, A16. -/
theorem test_add_flag_operand : after ((start 0x8F04).setV VF 0xF0 |>.setV 0 0x20) (fun t => t.getV VF == 1) = true ∧
    after ((start 0x80F4).setV VF 1 |>.setV 0 0xFF) (fun t => t.getV 0 == 0 && t.getV VF == 1) = true := by decide
/-- A17, A18, A19. -/
theorem test_sub : after ((start 0x8125).setV 1 5 |>.setV 2 7) (fun t => t.getV 1 == 254 && t.getV VF == 0) = true ∧
    after ((start 0x8125).setV 1 7 |>.setV 2 7) (fun t => t.getV 1 == 0 && t.getV VF == 1) = true := by decide
/-- A21. -/
theorem test_sub_flag_operand : after ((start 0x8FF5).setV VF 5) (fun t => t.getV VF == 1) = true := by decide
/-- A22, A23. -/
theorem test_subn : after ((start 0x8127).setV 1 5 |>.setV 2 7) (fun t => t.getV 1 == 2 && t.getV VF == 1) = true ∧
    after ((start 0x8127).setV 1 7 |>.setV 2 5) (fun t => t.getV 1 == 254 && t.getV VF == 0) = true := by decide
/-- A25. -/
theorem test_shr : after ((start 0x8476).setV 4 0xFF |>.setV 7 0x12)
    (fun t => t.getV 4 == 0x7F && t.getV VF == 1 && t.getV 7 == 0x12) = true := by decide
/-- A27. -/
theorem test_shr_flag_operand : after ((start 0x8F06).setV VF 3) (fun t => t.getV VF == 0) = true := by decide
/-- S5a. -/
theorem test_shl : after ((start 0x840E).setV 4 0xFF) (fun t => t.getV 4 == 0xFE && t.getV VF == 1) = true := by decide
/-- A29, A30. -/
theorem test_shl_flag_operand : after ((start 0x8F0E).setV VF 0x81) (fun t => t.getV VF == 2) = true ∧
    after ((start 0x8F0E).setV VF 0x7F) (fun t => t.getV VF == 0) = true := by decide
/-- A31: the byte is free, so the result is the byte masked. -/
theorem test_rnd : ∃ t, step (start 0xC30F) = .next t ∧ t.getV 3 = Config.rndIn 0 &&& 0x0F ∧ t.rndSamples = 1 :=
  ⟨_, rfl, rfl, rfl⟩
/-- M1. -/
theorem test_ld_index : after (start 0xA300) (fun t => t.i == 0x300 && t.pc == 0x202) = true := by decide
/-- M3, M4. -/
theorem test_add_index : after ((start 0xF21E).setV 2 1 |>.setI 0xFFF) (fun t => t.i == 0x1000 && t.getV VF == 0) = true ∧
    after ((start 0xF21E).setV 2 2 |>.setI 0xFFFF) (fun t => t.i == 1) = true := by decide
/-- M5, M7. -/
theorem test_glyph : after ((start 0xF029).setV 0 0x0B) (fun t => t.i == 0x087) = true ∧
    after ((start 0xF029).setV 0 0xFF) (fun t => t.i == 0x54B) = true := by decide
/-- M8, M9. -/
theorem test_bcd : after ((start 0xF033).setV 0 254 |>.setI 0x300) (fun t => bytesAt t 0x300 3 == [2, 5, 4]) = true ∧
    after ((start 0xF033).setV 0 255 |>.setI 0xFFD) (fun t => bytesAt t 0xFFD 3 == [2, 5, 5] && t.i == 0xFFD) = true := by
  decide
/-- M10. -/
theorem test_bcd_past_the_end : after ((start 0xF033).setV 0 255 |>.setI 0xFFE)
    (fun t => t.fault == .outOfBoundsAccess && t.faultInfo == 0x1000 && bytesAt t 0xFFE 2 == [0, 0] && t.pc == 0x200) = true := by
  decide
/-- M11, M12, here with V1 and VF. -/
theorem test_block_store : after ((start 0xF055).setV 1 1 |>.setV VF 15 |>.setI 0x300)
    (fun t => bytesAt t 0x300 17 == [0, 1, 0, 0, 0, 0, 0, 0, 0, 0, 0, 0, 0, 0, 0, 15, 0] && t.i == 0x300) = true := by decide
/-- M14. -/
theorem test_block_store_past_the_end : after ((start 0xFF55).setV 0 1 |>.setI 0xFF1)
    (fun t => t.fault == .outOfBoundsAccess && t.faultInfo == 0x1000 && t.mem == (start 0xFF55).mem) = true := by decide
/-- M17. -/
theorem test_block_load_of_the_font : after ((start 0xFF65).setI 0x050)
    (fun t => t.getV 0 == 0xF0 && t.getV 5 == 0x20 && t.getV 9 == 0x70 && t.getV VF == 0xF0 && t.i == 0x050) = true := by decide
/-- M15. -/
theorem test_block_load_past_the_end : after ((start 0xFF65).setI 0x1000)
    (fun t => t.fault == .outOfBoundsAccess && t.faultInfo == 0x1000 && t.v == (start 0xFF65).v) = true := by decide
/-- G1. -/
theorem test_cls : after ((start 0x00E0).setFB (FrameBuffer.clear.toggle 3 7) |>.setV VF 1)
    (fun t => rows t == List.replicate 32 0 && t.getV VF == 1) = true := by decide
/-- G2: the glyph 0 at the top left corner. -/
theorem test_draw_glyph : after ((start 0xD015).setI 0x050)
    (fun t => t.getV VF == 0 && rows t ==
      [0xF0 * 2 ^ 56, 0x90 * 2 ^ 56, 0x90 * 2 ^ 56, 0x90 * 2 ^ 56, 0xF0 * 2 ^ 56] ++ List.replicate 27 0) = true := by decide
/-- G4: clipped at the right and bottom edges, and a collision at (31, 63). -/
theorem test_draw_clips : after (((start 0xD013).setMem (Memory.writeAll (start 0xD013).mem 0x300 [0xFF, 0xFF, 0xFF])).setI 0x300
      |>.setV 0 62 |>.setV 1 30 |>.setFB (FrameBuffer.clear.toggle 31 63))
    (fun t => t.getV VF == 1 && rows t == List.replicate 30 0 ++ [3, 2]) = true := by decide
/-- K2, K3. -/
theorem test_skp : after (((start 0xE29E).setV 2 10).setKey 10 true) (fun t => t.pc == 0x204) = true ∧
    after ((start 0xE29E).setV 2 10) (fun t => t.pc == 0x202) = true := by decide
/-- K6. -/
theorem test_skp_no_such_key : after ((start 0xE09E).setV 0 0x10)
    (fun t => t.fault == .keyIndexError && t.faultInfo == 0x10 && t.pc == 0x200) = true := by decide
/-- K4, K5. -/
theorem test_sknp : after (((start 0xE2A1).setV 2 10).setKey 10 true) (fun t => t.pc == 0x202) = true ∧
    after ((start 0xE2A1).setV 2 10) (fun t => t.pc == 0x204) = true := by decide
/-- K7. -/
theorem test_wait_without_a_key : after (start 0xF30A) (fun t => t == start 0xF30A) = true := by decide
/-- K9. -/
theorem test_wait_lowest_key : after (((start 0xF30A).setKey 4 true).setKey 9 true)
    (fun t => t.getV 3 == 4 && t.pc == 0x202) = true := by decide
/-- T1. -/
theorem test_read_delay : after ((start 0xF507).setDT 0x2A) (fun t => t.getV 5 == 0x2A && t.dt == 0x2A) = true := by decide
/-- T2. -/
theorem test_set_delay : after ((start 0xF015).setV 0 60) (fun t => t.dt == 60 && t.st == 0) = true := by decide
/-- T3. -/
theorem test_set_sound : after ((start 0xF118).setV 1 5) (fun t => t.st == 5 && t.dt == 0 && t.tone) = true := by decide
/-- T4. -/
theorem test_tick : after { State.reset with dt := 2, st := 1, sched := [.tick] }
    (fun t => t.dt == 1 && t.st == 0 && t.pc == 0x200 && !t.tone) = true ∧
    State.tickTone { State.reset with st := 1 } = some true := by decide
/-- T7, F3. -/
theorem test_halted_tick : after { State.reset with dt := 9, fault := .decodeError, sched := [.tick] } (fun t => t.dt == 9) = true := by
  decide
/-- K1. -/
theorem test_key_event : after { State.reset with sched := [.keyEvent 10 true] } (fun t => t == State.reset.setKey 10 true) = true := by
  decide
/-- F1. -/
theorem test_empty_memory : after State.reset (fun t => t.fault == .decodeError && t.faultInfo == 0 && t.pc == 0x200) = true := by
  decide
/-- F2. -/
theorem test_illegal_word : after (start 0x5AB1) (fun t => t.fault == .decodeError && t.faultInfo == 0x5AB1) = true := by decide
/-- F4. -/
theorem test_stop : after { State.reset with sched := [.stop] } (fun t => t.stopped && t.halted && t.fault == .noFault) = true := by
  decide
/-- B21. -/
theorem test_fetch_past_the_end : after { State.reset with pc := 0xFFF }
    (fun t => t.fault == .outOfBoundsAccess && t.faultInfo == 0x1000 && t.pc == 0xFFF) = true := by decide
/-- B22. -/
theorem test_fetch_at_an_odd_pc : after { State.reset with pc := 0x201, mem := [(0x201, 0x60), (0x202, 0x2A)] }
    (fun t => t.getV 0 == 0x2A && t.pc == 0x203) = true := by decide
/-- F5 and R231: Reset with an image of three bytes. -/
theorem test_restart : after { (start 0x00EE).setV 3 9 with stopped := true, sched := [.restart [0x12, 0, 0x34]] }
    (fun t => t == { State.reset with mem := [(0x200, 0x12), (0x202, 0x34)] }) = true := by decide

/-! ## Witnesses: for each statement with hypotheses, states and operands that meet them, at the ends of their ranges -/

/-- A step of the CPU from `s` ends in a fault of this kind. -/
def faultsWith (s : State) (c : FaultCode) : Prop :=
  s.halted = false ∧ ∃ t, cpuStep s = .next t ∧ t.fault = c ∧ t.fault ≠ .noFault

/-- The sprite of the glyph 0 at (0, 0) covers (0, 0) and not (1, 1). -/
theorem sprite_covers_and_leaves : SpriteOver (State.reset.setI 0x050) 0 0 5 0 0 ∧
    ¬ SpriteOver (State.reset.setI 0x050) 0 0 5 1 1 := by unfold SpriteOver; decide

theorem witness_IllegalWords : decode 0x0FFF = .error .family0 ∧ decode 0x5FFF = .error .family5 ∧
    decode 0x800F = .error .family8 ∧ decode 0x9001 = .error .family9 ∧ decode 0xEFFF = .error .familyE ∧
    decode 0xF000 = .error .familyF := ⟨rfl, rfl, rfl, rfl, rfl, rfl⟩
theorem witness_DecodeAfterEncode : Instr.wellFormed (.jpVxNNN 15 0xFFF) = true ∧ Instr.wellFormed (.jpVxNNN 0 0) = true := by
  decide
theorem witness_EncodeAfterDecode : decode 0xB345 = .ok (.jpVxNNN 3 0x345) ∧ decode 0x8AB6 = .ok (.shrVx 10 11) := ⟨rfl, rfl⟩
theorem witness_UnusedNibbles : ((0x8406 : Word) ≠ 0x8476 ∧ (0x8406 : Word) &&& 0xFF0F = 0x8476 &&& 0xFF0F ∧
      (0x8406 : Word) &&& 0xF00F = 0x8006) ∧ ((0x840E : Word) &&& 0xF00F = 0x800E) ∧
    ((0xF055 : Word) &&& 0xF0FF = 0xFF55 &&& 0xF0FF ∧ (0xF055 : Word) &&& 0xF0FF = 0xF055) ∧
    (0xFF65 : Word) &&& 0xF0FF = 0xF065 := by decide
theorem witness_Fetch : ({ State.reset with pc := 4094 } : State).pc.toNat ≤ 4094 ∧
    ({ State.reset with pc := 4095 } : State).pc.toNat = 4095 ∧ ({ State.reset with pc := 4096 } : State).pc.toNat > 4095 := by
  decide
theorem witness_DataRead : (4096 : Nat) > 4095 ∧ (4095 : Nat) ≤ 4095 := by decide
theorem witness_StepRuns : ∃ s t : State, s.halted = false ∧ s.pc.toNat ≤ 4094 ∧
    decode (wordOfBytes (s.mem.read s.pc.toNat) (s.mem.read (s.pc.toNat + 1))) = .ok (.jpNNN 0x234) ∧ s.sched = [] ∧
    t = { s with sched := [.step, .tick] } ∧ t.sched = .step :: [.tick] := ⟨start 0x1234, _, rfl, by decide, rfl, rfl, rfl, rfl⟩
theorem witness_StepChecks : (State.halted { State.reset with pc := 4095 } = false ∧
      ({ State.reset with pc := 4095 } : State).pc.toNat > 4094) ∧
    (fetch (start 0x5AB1) = .ok 0x5AB1 ∧ decode 0x5AB1 = .error .family5) ∧
    fetch (start 0x00EE) = .ok 0x00EE ∧ decode 0x00EE = .ok .ret := ⟨⟨rfl, by decide⟩, ⟨rfl, rfl⟩, rfl, rfl⟩
theorem witness_IllegalWord : (start 0x5AB1).halted = false ∧ fetch (start 0x5AB1) = .ok 0x5AB1 ∧
    decode 0x5AB1 = .error .family5 ∧ fetch State.reset = .ok 0x0000 ∧ State.reset.halted = false := ⟨rfl, rfl, rfl, rfl, rfl⟩
theorem witness_MemoryFault : (0 < dataBytes (.ldBVx 0) ∧ (State.reset.setI 4094).i.toNat + dataBytes (.ldBVx 0) - 1 > 4095) ∧
    ((State.reset.setI 4081).i.toNat + dataBytes (.ldIV 0) - 1 > 4095 ∧ 0 < dataBytes (.ldVI 0)) ∧
    (State.reset.setI 4096).i.toNat + dataBytes (.drwVxVyN 0 0 1) - 1 > 4095 := by decide
theorem witness_Faults : faultsWith (start 0x0000) .decodeError ∧ faultsWith { start 0x2400 with sp := 16 } .stackOverflow ∧
    faultsWith { State.reset with pc := 4095 } .outOfBoundsAccess ∧ faultsWith ((start 0xF033).setI 4094) .outOfBoundsAccess ∧
    faultsWith (start 0x00EE) .stackUnderflow ∧ faultsWith ((start 0xE09E).setV 0 16) .keyIndexError :=
  ⟨⟨rfl, _, rfl, rfl, by decide⟩, ⟨rfl, _, rfl, rfl, by decide⟩, ⟨rfl, _, rfl, rfl, by decide⟩, ⟨rfl, _, rfl, rfl, by decide⟩,
    ⟨rfl, _, rfl, rfl, by decide⟩, ⟨rfl, _, rfl, rfl, by decide⟩⟩
theorem witness_Halted : ({ State.reset with fault := .decodeError } : State).fault ≠ .noFault ∧
    ({ State.reset with stopped := true } : State).stopped = true := by decide
theorem witness_OnlyResetLeavesHalt : ∃ s t : State, s.halted = true ∧ step s = .next t ∧
    ∀ image rest, s.sched ≠ .restart image :: rest :=
  ⟨{ State.reset with stopped := true, sched := [.tick] }, _, rfl, rfl, fun _ _ => by simp⟩
theorem witness_Inv : State.Inv State.reset := ⟨Memory.wf_nil, by decide, by decide, rfl⟩
theorem witness_PlacedWord : State.Inv State.reset ∧ decode 0x00E0 = .ok .cls ∧ State.reset.halted = false ∧
    State.reset.pc.toNat ≤ 4094 := ⟨witness_Inv, rfl, rfl, by decide⟩
theorem witness_FlagOperands : (0 : Reg) ≠ VF ∧ (15 : Reg) = VF ∧ (0xFF : Byte) = 0xFF ∧
    ((State.reset.setV 1 128).getV 1).toNat ≥ 128 := by decide
theorem witness_Jump : State.reset.pc.toNat = (0x200 : Imm12).toNat := by decide
theorem witness_OffsetJump : (4095 : Nat) > 4094 ∧ ∃ t, exec (.jpVxNNN 15 0xFFF) (State.reset.setV VF 255) = .next t ∧
    t.pc.toNat > 4094 := ⟨by decide, _, rfl, by decide⟩
theorem witness_Call : State.reset.sp.val = (0 : Fin 16).val ∧ ({ State.reset with sp := 15 } : State).sp.val = (15 : Fin 16).val ∧
    ({ State.reset with sp := 16 } : State).sp.val = 16 := by decide
theorem witness_Return : ({ State.reset with sp := 1 } : State).sp.val = (0 : Fin 16).val + 1 ∧
    ({ State.reset with sp := 16 } : State).sp.val = (15 : Fin 16).val + 1 ∧ State.reset.sp.val = 0 := by decide
theorem witness_CallThenReturn : ∃ s t u : State, s.sp.val < 16 ∧ exec (.callNNN 0x20C) s = .next t ∧ u.stack = t.stack ∧
    u.sp = t.sp ∧ u.pc ≠ t.pc :=
  ⟨{ State.reset with sp := 15 }, _, State.jump _ 0x20E, by decide, rfl, rfl, rfl, by decide⟩
theorem witness_Skips : State.reset.getV 1 = 0 ∧ State.reset.getV 1 ≠ 1 ∧ State.reset.getV 1 = State.reset.getV 2 ∧
    (State.reset.setV 1 7).getV 1 ≠ (State.reset.setV 1 7).getV 2 ∧ ((0x5AB1 : Word).toNat % 16 ≠ 0 ∧ (0x5AB1 : Word).toNat / 4096 = 5) ∧
    ∃ t, exec (.seVxNN 0 0) { State.reset with pc := 4094 } = .next t ∧ t.pc.toNat > 4094 :=
  ⟨by decide, by decide, by decide, by decide, by decide, _, rfl, by decide⟩
theorem witness_PcMoves : ∃ s t : State, s.fault = .noFault ∧ exec (.seVxNN 0 0) s = .next t ∧ t.fault = .noFault :=
  ⟨State.reset, _, rfl, rfl, rfl⟩
theorem witness_Digits : ((State.reset.setI 4093).mem.wf ∧ (State.reset.setI 4093).i.toNat + 2 ≤ 4095) ∧
    (State.reset.setI 4094).i.toNat + 2 > 4095 := ⟨⟨Memory.wf_nil, by decide⟩, by decide⟩
theorem witness_Block : ((State.reset.setI 4080).mem.wf ∧ (State.reset.setI 4080).i.toNat + 15 ≤ 4095) ∧
    (State.reset.setI 4081).i.toNat + 15 > 4095 := ⟨⟨Memory.wf_nil, by decide⟩, by decide⟩
theorem witness_StoreThenLoad : ∃ s t u : State, s.mem.wf ∧ s.i.toNat + 15 ≤ 4095 ∧ exec (.ldIV 0) s = .next t ∧ u.mem = t.mem ∧
    u.i = s.i ∧ u.getV 3 ≠ s.getV 3 :=
  ⟨State.reset.setI 4080 |>.setV 3 7, _, State.setV _ 3 9, Memory.wf_nil, by decide, rfl, rfl, rfl, by decide⟩
theorem witness_StoreThenFetch : ∃ (s t u : State) (k j : Reg), s.mem.wf ∧ s.i.toNat + 15 ≤ 4095 ∧ exec (.ldIV 0) s = .next t ∧
    u.mem = t.mem ∧ j.val = k.val + 1 ∧ u.pc.toNat = s.i.toNat + k.val :=
  ⟨State.reset.setI 4080, _, State.jump _ 4094, 14, 15, Memory.wf_nil, by decide, rfl, rfl, rfl, by decide⟩
theorem witness_Draw : ((0 : RowCount).val = 0 ∧ (State.reset.setI 0xFFFF).i.toNat + (0 : RowCount).val - 1 > 4095) ∧
    (State.reset.setI 4081).i.toNat + (15 : RowCount).val - 1 ≤ 4095 ∧
    (0 < (15 : RowCount).val ∧ (State.reset.setI 4082).i.toNat + (15 : RowCount).val - 1 > 4095) := by decide
theorem witness_DrawTwice : ∃ s t : State, (0 : Reg) ≠ VF ∧ (1 : Reg) ≠ VF ∧ s.fault = .noFault ∧
    exec (.drwVxVyN 0 1 5) s = .next t ∧ t.fault = .noFault ∧ t.fb.pixel 0 0 = true :=
  ⟨State.reset.setI 0x050, _, by decide, by decide, rfl, rfl, rfl, by decide⟩
theorem witness_KeySkips : ((State.reset.setV 0 15).getV 0).toNat = (15 : Key).val ∧ (State.reset.setKey 15 true).keys[15] = true ∧
    State.reset.keys[15] = false ∧ ((State.reset.setV 0 16).getV 0).toNat > 15 := by decide
theorem witness_WaitForKey : ((State.reset.setKey 15 true).keys[15] = true ∧
      ∀ j : Key, j < 15 → (State.reset.setKey 15 true).keys[j.val] = false) ∧
    ∀ k : Key, State.reset.keys[k.val] = false := by decide
theorem witness_Tick : State.reset.halted = false ∧ (State.reset.setST 1).halted = false ∧ (State.reset.setST 1).st.toNat > 0 ∧
    State.reset.st.toNat = 0 := by decide
theorem witness_DelayGrows : ∃ s t : State, step s = .next t ∧ s.dt.toNat < t.dt.toNat :=
  ⟨(start 0xF015).setV 0 60, _, rfl, by decide⟩
theorem witness_KeyEvent : State.reset.halted = false ∧ State.halted { State.reset with stopped := true } = true ∧
    State.reset.keys[15] = false ∧ (0 : Key) ≠ 15 := by decide
theorem witness_Stop : State.reset.halted = false := rfl
theorem witness_LoadImage : (List.replicate 3584 (0xFF : Byte)).length ≤ 3584 ∧ (List.replicate 3585 (0xFF : Byte)).length > 3584 := by
  simp
theorem witness_StepInv : ∃ s t : State, s.Inv ∧ step s = .next t ∧ t.fault = .decodeError := ⟨_, _, witness_Inv, rfl, rfl⟩
theorem witness_Writers : ∃ s t : State, exec (.ldBVx 0) s = .next t ∧ t.mem ≠ s.mem :=
  ⟨State.reset.setI 0x300 |>.setV 0 123, _, rfl, by decide⟩
theorem witness_WritersOfRegisters : ∃ s t : State, exec (.addVxVy 1 2) s = .next t ∧ t.getV VF ≠ s.getV VF ∧ t.getV 1 ≠ s.getV 1 :=
  ⟨State.reset.setV 1 200 |>.setV 2 100, _, rfl, by decide, by decide⟩
theorem witness_FlagWriter : WritesFlag (.shlVx VF 0) ∧ ∃ t, State.reset.fault = .noFault ∧
    exec (.shlVx VF 0) (State.reset.setV VF 0x81) = .next t ∧ t.fault = .noFault ∧ t.getV VF = 2 :=
  ⟨.inl ⟨VF, 0, by simp⟩, _, rfl, rfl, rfl, rfl⟩
theorem witness_SeesNoTimer : SeesNoTimer (.ldVxK 0) ∧ SeesNoKey (.ldVxDT 0) := ⟨fun _ => by simp, fun _ => by simp⟩
theorem witness_SelfJump : ∃ s : State, s.halted = false ∧ s.sched = [] ∧ fetch s = .ok (encode (.jpNNN 0x200)) ∧
    s.pc.toNat = (0x200 : Imm12).toNat := ⟨start 0x1200, rfl, rfl, rfl, by decide⟩

end Sys2Proof.Tests
end

/-! SUPPORT. Proofs of the statements on scope and step (spec/00_scope.md): what a CPU step answers, and what
`withFetchWord` leaves for it. -/

section

namespace Sys2Proof.Machine

open Sys2Proof.Claims

/-! ## Frames -/

/-- Taking a fault writes the latch and nothing else (R208). -/
theorem keptBut_latch (s : State) (f : Fault) : KeptBut [.fault, .faultInfo] s (s.latch f) := by
  intro p hp
  cases p with
  | fault | faultInfo => simp at hp
  | _ => simp [Part.kept]

/-- A running state with the invariant has recorded nothing (R200). -/
theorem faultInfo_of_running {s : State} (hi : s.Inv) (hs : s.halted = false) : s.faultInfo = 0 := by
  have hl := hi.latch
  rwa [State.LatchSound, (State.running_iff.mp hs).1] at hl

/-! ## The CPU's step and the schedule (R11, R36, R207) -/

/-- A CPU step scheduled first runs the fetched word: the fetch does not see the schedule moving on. -/
theorem step_exec_of_cpu_scheduled {s : State} {ir : Word} {i : Instr} {rest : List Action} (hs : s.halted = false)
    (hf : fetch s = .ok ir) (hd : decode ir = .ok i) (hq : s.sched = .step :: rest) :
    step s = exec i { s with sched := rest } := by
  have hf' : fetch { s with sched := rest } = .ok ir := (fetch_congr rfl rfl).trans hf
  rw [step_scheduled hq]
  exact cpuStep_exec hs hf' hd

/-- The address an out-of-bounds fetch records fits the latch's 16 bits. -/
theorem outOfBoundsAccess_info_toNat {a : Nat} (h : a < 65536) : (Fault.outOfBoundsAccess a).info.toNat = a := by
  rw [Fault.info, BitVec.toNat_ofNat, Nat.mod_eq_of_lt h]

/-! ## `withFetchWord` (log entry 7) -/

/-- A fetch succeeds where the word is placed (R53). -/
theorem fetchPlace_lt (s : State) : s.fetchPlace.toNat < 4095 := by
  unfold State.fetchPlace
  split
  · assumption
  · decide

theorem fetchPlace_of_pc_le {s : State} (h : s.pc.toNat ≤ 4094) : s.fetchPlace = s.pc :=
  if_pos (by omega)

@[simp] theorem tableWord_toNat (w : Word) : tableWord 16 w.toNat = w := by
  simp [tableWord, Nat.mod_eq_of_lt w.isLt]

/-- The state in which a placed word runs: `withFetchWord` with its CPU step taken off the schedule. -/
def State.placed (s : State) (w : Word) : State := { s.withFetchWord 16 w.toNat with sched := s.sched }

@[simp] theorem State.placed_pc (s : State) (w : Word) : (s.placed w).pc = s.fetchPlace := rfl

@[simp] theorem State.placed_mem (s : State) (w : Word) :
    (s.placed w).mem = s.mem.writeAll s.fetchPlace.toNat [highByte w, lowByte w] := by
  simp [State.placed, State.withFetchWord]

theorem State.placed_running (s : State) (w : Word) : (s.placed w).halted = false := rfl

/-- The CPU moves next after placing a word, whether or not actions are scheduled. -/
theorem step_withFetchWord (s : State) (w : Word) : step (s.withFetchWord 16 w.toNat) = cpuStep (s.placed w) := by
  cases hq : s.sched with
  | nil =>
    have hnil : (s.withFetchWord 16 w.toNat).sched = [] := by simp only [State.withFetchWord, hq]
    rw [step_unscheduled hnil, State.placed, hq, ← hnil]
  | cons a rest =>
    have hcons : (s.withFetchWord 16 w.toNat).sched = .step :: a :: rest := by simp only [State.withFetchWord, hq]
    rw [step_scheduled hcons, State.placed, hq]
    rfl

/-- The placed bytes are the ones fetched, high byte first. -/
theorem fetch_placed {s : State} (hm : s.mem.wf) (w : Word) : fetch (s.placed w) = .ok w := by
  rw [fetch_ok (fetchPlace_lt s)]
  simp [Memory.read_writeAll hm.1]

theorem bytesKeptOutside_placed {s : State} (hm : s.mem.wf) (w : Word) :
    BytesKeptOutside (s.placed w).pc.toNat 2 s (s.placed w) := by
  intro a ha
  rw [State.placed_mem, Memory.read_writeAll hm.1]
  exact if_neg ha

theorem keptBut_placed (s : State) (w : Word) :
    KeptBut [.mem, .pc, .fault, .faultInfo, .stopped] s (s.placed w) := by
  intro p hp
  cases p with
  | mem | pc | fault | faultInfo | stopped => simp at hp
  | _ => simp [Part.kept, State.placed, State.withFetchWord, State.getV]

/-- On a running core whose `pc` a fetch can use, placing a word changes memory alone. -/
theorem keptBut_placed_of_running {s : State} (hi : s.Inv) (w : Word) (hs : s.halted = false) (hpc : s.pc.toNat ≤ 4094) :
    KeptBut [.mem] s (s.placed w) := by
  obtain ⟨hfault, hstopped⟩ := State.running_iff.mp hs
  intro p hp
  cases p with
  | mem => simp at hp
  | pc => exact fetchPlace_of_pc_le hpc
  | fault => exact hfault.symm
  | faultInfo => exact (faultInfo_of_running hi hs).symm
  | stopped => exact hstopped.symm
  | _ => exact keptBut_placed s w _ (by simp)

/-! ## The statements -/

/-- Settles O11: the three answers of a running CPU step, by the fetch and then the decoding. -/
theorem stepChecksInOrder : Obligations.StepChecksInOrder := by
  intro s hs
  refine ⟨fun hpc => ?_, fun ir e hf hd => ?_, fun ir i hf hd => cpuStep_exec hs hf hd⟩
  · refine ⟨_, cpuStep_fetch_error hs (fetch_error (by omega)), rfl, ?_, keptBut_latch s _⟩
    exact outOfBoundsAccess_info_toNat (by omega)
  · exact ⟨_, cpuStep_decode_error hs hf hd, rfl, rfl, keptBut_latch s _⟩

/-- Settles O18: the step runs the word in the state `State.placed`. -/
theorem placedWordRunsNext : Obligations.PlacedWordRunsNext := by
  intro s w i hi hd
  have hf : fetch (s.placed w) = .ok w := fetch_placed hi.mem_wf w
  have hrun : cpuStep (s.placed w) = exec i (s.placed w) := cpuStep_exec (s.placed_running w) hf hd
  exact ⟨s.placed w, (step_withFetchWord s w).trans hrun, s.placed_running w, hf, keptBut_placed s w,
    bytesKeptOutside_placed hi.mem_wf w, keptBut_placed_of_running hi w⟩

/-- Settles O10: the fetch of a `pc` in range gives the word whose decoding is assumed. -/
theorem stepRunsTheDecodedInstruction : Obligations.StepRunsTheDecodedInstruction := by
  refine ⟨fun s i hs hpc hd => ?_, fun s a rest hq => step_scheduled hq⟩
  have hf := fetch_ok (s := s) (by omega)
  exact ⟨fun hq => (step_unscheduled hq).trans (cpuStep_exec hs hf hd),
    fun rest hq => step_exec_of_cpu_scheduled hs hf hd hq⟩

end Sys2Proof.Machine

end

/-! SUPPORT. Proofs of the statements on the state (spec/10_state.md): which instruction writes which part, what the flag
writers leave in `VF`, that the timers and the keypad are unseen by the rest, and the invariant of the machine. -/

section

namespace Sys2Proof.Machine

open Sys2Proof.Claims

/-! ## The end of an instruction that can fault -/

/-- Everything an instruction answers that reads or writes and then goes on: it went on from what the access gave, or the
access raised the fault taken in the state before (R208). -/
theorem finish_map_cases {α : Type} {s t : State} {r : Except Fault α} {g : α → State}
    (h : finish s (r.map g) = .next t) : (∃ a, r = .ok a ∧ t = g a) ∨ ∃ f, r = .error f ∧ t = s.latch f := by
  cases r with
  | ok a => exact .inl ⟨a, rfl, by cases h; rfl⟩
  | error f => exact .inr ⟨f, rfl, by cases h; rfl⟩

/-! ## What each fault records is sound (R200) -/

/-- What an out-of-bounds access records is at least 4096, an address of at most 16 bits (R203). -/
theorem latchSound_outOfBounds (s : State) {base : Nat} (h : base < 65536) :
    (s.latch (.outOfBoundsAccess (max base 4096))).LatchSound := by
  show 4096 ≤ (Fault.outOfBoundsAccess (max base 4096)).info.toNat
  rw [outOfBoundsAccess_info_toNat (by omega)]
  omega

theorem latchSound_of_readBytes_error {s : State} {base n : Nat} {f : Fault} (hb : base < 65536)
    (h : readBytes s base n = .error f) : (s.latch f).LatchSound := by
  by_cases hr : n = 0 ∨ base + n ≤ 4096
  · rw [readBytes_ok s hr] at h
    cases h
  · rw [readBytes_error s (by omega) (by omega)] at h
    cases h
    exact latchSound_outOfBounds s hb

theorem latchSound_of_writeBytes_error {s : State} {base : Nat} {vs : List Byte} {f : Fault} (hb : base < 65536)
    (hn : vs ≠ []) (h : writeBytes s base vs = .error f) : (s.latch f).LatchSound := by
  by_cases hr : base + vs.length ≤ 4096
  · rw [writeBytes_ok s hr] at h
    cases h
  · rw [writeBytes_error s hn (by omega)] at h
    cases h
    exact latchSound_outOfBounds s hb

theorem latchSound_of_pushReturn_error {s : State} {f : Fault} (h : pushReturn s = .error f) :
    (s.latch f).LatchSound := by
  by_cases hs : s.sp.val < 16
  · rw [pushReturn_ok hs] at h
    cases h
  · have hs' : s.sp.val = 16 := by omega
    rw [pushReturn_error hs'] at h
    cases h
    exact ⟨rfl, hs'⟩

theorem latchSound_of_popReturn_error {s : State} {f : Fault} (h : popReturn s = .error f) :
    (s.latch f).LatchSound := by
  by_cases hs : 0 < s.sp.val
  · rw [popReturn_ok hs] at h
    cases h
  · have hs' : s.sp.val = 0 := by omega
    rw [popReturn_error hs'] at h
    cases h
    exact ⟨rfl, hs'⟩

theorem latchSound_of_readKey_error {s : State} {b : Byte} {f : Fault} (h : readKey s b = .error f) :
    (s.latch f).LatchSound := by
  by_cases hb : b.toNat < 16
  · rw [readKey_ok hb] at h
    cases h
  · rw [readKey_error (by omega)] at h
    cases h
    show 16 ≤ (zextByte b).toNat ∧ (zextByte b).toNat ≤ 255
    rw [zextByte, BitVec.toNat_setWidth]
    omega

/-- A fetch that faults records a sound address (R53). -/
theorem latchSound_of_fetch_error {s : State} {f : Fault} (h : fetch s = .error f) : (s.latch f).LatchSound := by
  by_cases hpc : s.pc.toNat < 4095
  · rw [fetch_ok hpc] at h
    cases h
  · rw [fetch_error (by omega)] at h
    cases h
    exact latchSound_outOfBounds s s.pc.isLt

theorem latchSound_decodeError {s : State} {ir : Word} {e : Illegal} (hf : fetch s = .ok ir) (hd : decode ir = .error e) :
    (s.latch (.decodeError ir)).LatchSound :=
  ⟨(fetch_congr rfl rfl).trans hf, e, hd⟩

/-! ## The stores and LD Vx,K -/

/-- R146: the digits are three bytes, so the range is never empty. -/
theorem decimalDigits_ne_nil (b : Byte) : decimalDigits b ≠ [] := List.cons_ne_nil _ _

/-- R150: the register file is sixteen bytes, so the range is never empty. -/
theorem v_toList_ne_nil (s : State) : s.v.toList ≠ [] := by
  intro h
  simpa using congrArg List.length h

/-- Everything LD B,Vx and LD [I],V can do: they write bytes inside memory, which keeps its canonical form, or take a fault
whose record is sound (R146, R150, R63). -/
theorem exec_store_cases {i : Instr} {s t : State} (hi : ∃ x, i = .ldBVx x ∨ i = .ldIV x) (h : exec i s = .next t) :
    (∃ m, t = (s.setMem m).advance ∧ (s.mem.wf → m.wf)) ∨ ∃ f, t = s.latch f ∧ (s.latch f).LatchSound := by
  obtain ⟨vs, hn, h⟩ : ∃ vs, vs ≠ [] ∧ finish s ((writeBytes s s.base vs).map State.advance) = .next t := by
    obtain ⟨x, rfl | rfl⟩ := hi
    · exact ⟨decimalDigits (s.getV x), decimalDigits_ne_nil _, h⟩
    · exact ⟨s.v.toList, v_toList_ne_nil s, h⟩
  obtain ⟨u, hu, rfl⟩ | ⟨f, hf, rfl⟩ := finish_map_cases h
  · obtain ⟨hb, rfl⟩ := writeBytes_cases hn hu
    exact .inl ⟨_, rfl, fun hm => Memory.wf_writeAll hm hb⟩
  · exact .inr ⟨f, rfl, latchSound_of_writeBytes_error s.i.isLt hn hf⟩

theorem exec_ldVxK_of_none {s : State} (h : lowestKey s.keys = none) (x : Reg) : exec (.ldVxK x) s = .next s := by
  simp only [exec, execLdVxK, h]

theorem exec_ldVxK_of_some {s : State} {k : Key} (h : lowestKey s.keys = some k) (x : Reg) :
    exec (.ldVxK x) s = .next (s.setV x (BitVec.ofNat 8 k.val)).advance := by
  simp only [exec, execLdVxK, h]

/-- LD Vx,K waits, or stores a key and goes on (R175). -/
theorem exec_ldVxK_cases {s t : State} {x : Reg} (h : exec (.ldVxK x) s = .next t) :
    t = s ∨ ∃ b, t = (s.setV x b).advance := by
  cases hk : lowestKey s.keys with
  | none =>
    rw [exec_ldVxK_of_none hk] at h
    cases h
    exact .inl rfl
  | some k =>
    rw [exec_ldVxK_of_some hk] at h
    cases h
    exact .inr ⟨_, rfl⟩

/-! ## The writers of each part (R37) -/

/-- What `i` leaves alone and what it may write, from `s` to `t`: the statement `EachPartHasItsWriters`, by field. -/
structure WritesOwnParts (i : Instr) (s t : State) : Prop where
  keys : t.keys = s.keys
  stopped : t.stopped = s.stopped
  sched : t.sched = s.sched
  mem : t.mem ≠ s.mem → ∃ x, i = .ldBVx x ∨ i = .ldIV x
  fb : t.fb ≠ s.fb → i = .cls ∨ ∃ x y n, i = .drwVxVyN x y n
  stack : t.stack ≠ s.stack → ∃ nnn, i = .callNNN nnn
  sp : t.sp ≠ s.sp → i = .ret ∨ ∃ nnn, i = .callNNN nnn
  dt : t.dt ≠ s.dt → ∃ x, i = .ldDTVx x
  st : t.st ≠ s.st → ∃ x, i = .ldSTVx x
  index : t.i ≠ s.i → (∃ nnn, i = .ldINNN nnn) ∨ ∃ x, i = .addIVx x ∨ i = .ldFVx x
  rnd : t.rndSamples ≠ s.rndSamples → ∃ x nn, i = .rndVxNN x nn
  regs : ∀ r, t.getV r ≠ s.getV r → destination i = some r ∨ (r = VF ∧ WritesFlag i) ∨ ∃ x, i = .ldVI x

namespace WritesOwnParts

variable {i : Instr} {s t : State}

theorem refl (i : Instr) (s : State) : WritesOwnParts i s s where
  keys := rfl
  stopped := rfl
  sched := rfl
  mem h := absurd rfl h
  fb h := absurd rfl h
  stack h := absurd rfl h
  sp h := absurd rfl h
  dt h := absurd rfl h
  st h := absurd rfl h
  index h := absurd rfl h
  rnd h := absurd rfl h
  regs _ h := absurd rfl h

/-- Every instruction may move `pc` (R24). -/
theorem jump (h : WritesOwnParts i s t) (w : Word) : WritesOwnParts i s (t.jump w) := { h with }

theorem advance (h : WritesOwnParts i s t) : WritesOwnParts i s t.advance := h.jump _

theorem skipIf (h : WritesOwnParts i s t) (c : Bool) : WritesOwnParts i s (t.skipIf c) := h.jump _

/-- Every instruction may take a fault (R208). -/
theorem latch (h : WritesOwnParts i s t) (f : Fault) : WritesOwnParts i s (t.latch f) := { h with }

theorem setV (h : WritesOwnParts i s t) {x : Reg} (hx : destination i = some x) (b : Byte) :
    WritesOwnParts i s (t.setV x b) :=
  { h with
    regs := fun r hr => by
      by_cases hrx : r = x
      · exact .inl (hrx ▸ hx)
      · exact h.regs r (by rwa [State.getV_setV_other t b hrx] at hr) }

theorem setFlag (h : WritesOwnParts i s t) (hi : WritesFlag i) (f : Bool) : WritesOwnParts i s (t.setFlag f) :=
  { h with
    regs := fun r hr => by
      by_cases hrf : r = VF
      · exact .inr (.inl ⟨hrf, hi⟩)
      · exact h.regs r (by rwa [State.getV_setFlag_other t f hrf] at hr) }

/-- Stated for any register file: unifying through `State.setAllV` would evaluate the list of bytes. -/
theorem loadV (h : WritesOwnParts i s t) (hi : ∃ x, i = .ldVI x) (v : Vector Byte 16) :
    WritesOwnParts i s { t with v := v } :=
  { h with regs := fun _ _ => .inr (.inr hi) }

theorem setI (h : WritesOwnParts i s t) (hi : (∃ nnn, i = .ldINNN nnn) ∨ ∃ x, i = .addIVx x ∨ i = .ldFVx x) (w : Word) :
    WritesOwnParts i s (t.setI w) :=
  { h with index := fun _ => hi }

theorem setDT (h : WritesOwnParts i s t) (hi : ∃ x, i = .ldDTVx x) (b : Byte) : WritesOwnParts i s (t.setDT b) :=
  { h with dt := fun _ => hi }

theorem setST (h : WritesOwnParts i s t) (hi : ∃ x, i = .ldSTVx x) (b : Byte) : WritesOwnParts i s (t.setST b) :=
  { h with st := fun _ => hi }

theorem setFB (h : WritesOwnParts i s t) (hi : i = .cls ∨ ∃ x y n, i = .drwVxVyN x y n) (f : FrameBuffer) :
    WritesOwnParts i s (t.setFB f) :=
  { h with fb := fun _ => hi }

theorem setMem (h : WritesOwnParts i s t) (hi : ∃ x, i = .ldBVx x ∨ i = .ldIV x) (m : Memory) :
    WritesOwnParts i s (t.setMem m) :=
  { h with mem := fun _ => hi }

theorem sampled (h : WritesOwnParts i s t) (hi : ∃ x nn, i = .rndVxNN x nn) : WritesOwnParts i s t.sampled :=
  { h with rnd := fun _ => hi }

theorem of_pushReturn (hi : ∃ nnn, i = .callNNN nnn) (h : pushReturn s = .ok t) : WritesOwnParts i s t := by
  obtain ⟨_, rfl⟩ := pushReturn_cases h
  exact { refl i s with stack := fun _ => hi, sp := fun _ => .inr hi }

theorem of_popReturn (hi : i = .ret) (h : popReturn s = .ok t) : WritesOwnParts i s t := by
  obtain ⟨_, rfl⟩ := popReturn_cases h
  exact { refl i s with sp := fun _ => .inl hi }

end WritesOwnParts

/-- Every instruction, fault or not, writes only parts that are its own (R37). -/
theorem exec_writesOwnParts {i : Instr} {s t : State} (h : exec i s = .next t) : WritesOwnParts i s t := by
  have hr := WritesOwnParts.refl i s
  cases i with
  | cls => cases h; exact (hr.setFB (.inl rfl) _).advance
  | ret =>
    obtain h | ⟨f, _, rfl⟩ := finish_cases h
    · exact .of_popReturn rfl h
    · exact hr.latch f
  | jpNNN nnn | jpVxNNN x nnn => cases h; exact hr.jump _
  | callNNN nnn =>
    obtain ⟨u, hu, rfl⟩ | ⟨f, _, rfl⟩ := finish_map_cases h
    · exact (WritesOwnParts.of_pushReturn ⟨nnn, rfl⟩ hu).jump _
    · exact hr.latch f
  | seVxNN x nn | sneVxNN x nn | seVxVy x y | sneVxVy x y => cases h; exact hr.skipIf _
  | ldVxNN x nn | addVxNN x nn | ldVxVy x y | orVxVy x y | andVxVy x y | xorVxVy x y | ldVxDT x =>
    cases h; exact (hr.setV rfl _).advance
  | addVxVy x y | subVxVy x y | subnVxVy x y =>
    cases h; exact ((hr.setV rfl _).setFlag (.inl ⟨x, y, by simp⟩) _).advance
  | shrVx x y | shlVx x y =>
    cases h; exact ((hr.setFlag (.inl ⟨x, y, by simp⟩) _).setV rfl _).advance
  | ldINNN nnn => cases h; exact (hr.setI (.inl ⟨nnn, rfl⟩) _).advance
  | addIVx x => cases h; exact (hr.setI (.inr ⟨x, .inl rfl⟩) _).advance
  | ldFVx x => cases h; exact (hr.setI (.inr ⟨x, .inr rfl⟩) _).advance
  | rndVxNN x nn => cases h; exact ((hr.sampled ⟨x, nn, rfl⟩).setV rfl _).advance
  | drwVxVyN x y n =>
    obtain ⟨bs, _, rfl⟩ | ⟨f, _, rfl⟩ := finish_map_cases h
    · exact ((hr.setFB (.inr ⟨x, y, n, rfl⟩) _).setFlag (.inr ⟨x, y, n, rfl⟩) _).advance
    · exact hr.latch f
  | skpVx x | sknpVx x =>
    obtain ⟨_, _, rfl⟩ | ⟨f, _, rfl⟩ := finish_map_cases h
    · exact hr.skipIf _
    · exact hr.latch f
  | ldVxK x =>
    obtain rfl | ⟨b, rfl⟩ := exec_ldVxK_cases h
    · exact hr
    · exact (hr.setV rfl b).advance
  | ldDTVx x => cases h; exact (hr.setDT ⟨x, rfl⟩ _).advance
  | ldSTVx x => cases h; exact (hr.setST ⟨x, rfl⟩ _).advance
  | ldBVx x | ldIV x =>
    obtain ⟨m, rfl, _⟩ | ⟨f, rfl, _⟩ := exec_store_cases ⟨x, by simp⟩ h
    · exact (hr.setMem ⟨x, by simp⟩ m).advance
    · exact hr.latch f
  | ldVI x =>
    obtain ⟨bs, _, rfl⟩ | ⟨f, _, rfl⟩ := finish_map_cases h
    · exact (hr.loadV ⟨x, rfl⟩ _).advance
    · exact hr.latch f

/-- Settles O56: `exec_writesOwnParts`, field by field. -/
theorem eachPartHasItsWriters : Obligations.EachPartHasItsWriters := by
  intro i s t h
  obtain ⟨keys, stopped, sched, mem, fb, stack, sp, dt, st, index, rnd, regs⟩ := exec_writesOwnParts h
  exact ⟨keys, stopped, sched, mem, fb, stack, sp, dt, st, index, rnd, regs⟩

/-! ## The flag (R22, R100) -/

theorem flagByte_toNat_le (f : Bool) : (flagByte f).toNat ≤ 1 := by
  cases f <;> decide

/-- SHR of `VF` halves the flag it has just written (decision D7). -/
theorem halfByte_flagByte (f : Bool) : halfByte (flagByte f) = 0 := by
  cases f <;> rfl

/-- SHL of `VF` doubles the flag it has just written (decision D7). -/
theorem doubleByte_flagByte (f : Bool) : (doubleByte (flagByte f)).toNat ≤ 1 ∨ (doubleByte (flagByte f)).toNat = 2 := by
  cases f <;> decide

theorem latch_fault_ne_noFault (s : State) (f : Fault) : (s.latch f).fault ≠ .noFault := by
  cases f <;> simp [Fault.kind]

/-- Where the flag is written last, `VF` is that flag. -/
theorem getV_VF_of_writeResultThenFlag {x : Reg} {b : Byte} {f : Bool} {s t : State}
    (h : writeResultThenFlag x b f s = .next t) : t.getV VF = flagByte f := by
  cases h
  rw [State.advance_getV, State.getV_setFlag_VF]

/-- Where the flag is written first, `VF` is that flag, or the result if it is the destination. -/
theorem getV_VF_of_flagThenResult (s : State) (x : Reg) (f : Bool) (g : Byte → Byte) :
    (((s.setFlag f).setV x (g ((s.setFlag f).getV x))).advance).getV VF =
      if x = VF then g (flagByte f) else flagByte f := by
  rw [State.advance_getV, State.getV_setV]
  by_cases hx : x = VF
  · subst hx
    simp
  · rw [if_neg (Ne.symm hx), if_neg hx, State.getV_setFlag_VF]

/-- Settles O57: the flag is the last write to `VF`, but for a shift of `VF` itself and for a drawing that faults. -/
theorem flagIsZeroOrOneAfterAFlagWriter : Obligations.FlagIsZeroOrOneAfterAFlagWriter := by
  rintro i s t (⟨x, y, rfl | rfl | rfl | rfl | rfl⟩ | ⟨x, y, n, rfl⟩) hs h ht
  case inl.inl | inl.inr.inl | inl.inr.inr.inl =>
    rw [getV_VF_of_writeResultThenFlag h]
    exact .inl (flagByte_toNat_le _)
  case inl.inr.inr.inr.inl =>
    cases h
    rw [getV_VF_of_flagThenResult]
    split
    · exact .inl (by rw [halfByte_flagByte]; decide)
    · exact .inl (flagByte_toNat_le _)
  case inl.inr.inr.inr.inr =>
    cases h
    rw [getV_VF_of_flagThenResult]
    split
    · next hx => exact (doubleByte_flagByte _).imp_right fun h2 => ⟨⟨y, by rw [hx]⟩, h2⟩
    · exact .inl (flagByte_toNat_le _)
  case inr =>
    obtain ⟨bs, _, rfl⟩ | ⟨f, _, rfl⟩ := finish_map_cases h
    · rw [State.advance_getV, State.getV_setFlag_VF]
      exact .inl (flagByte_toNat_le _)
    · exact absurd ht (latch_fault_ne_noFault s f)

/-! ## The timers and the keypad are unseen by the rest (R26, R27, R28, R216) -/

/-- `s` with other values in the timers and the keypad latch. -/
def State.withPorts (s : State) (d e : Byte) (ks : Vector Bool 16) : State := { s with dt := d, st := e, keys := ks }

section Ports

variable (s : State) (d e : Byte) (ks : Vector Bool 16)

theorem readBytes_withPorts (base n : Nat) : readBytes (s.withPorts d e ks) base n = readBytes s base n := by
  by_cases h : n = 0 ∨ base + n ≤ 4096
  · rw [readBytes_ok _ h, readBytes_ok s h]
    rfl
  · rw [readBytes_error _ (by omega) (by omega), readBytes_error s (by omega) (by omega)]

theorem writeBytes_withPorts (base : Nat) {vs : List Byte} (hn : vs ≠ []) :
    writeBytes (s.withPorts d e ks) base vs = (writeBytes s base vs).map (·.withPorts d e ks) := by
  by_cases h : base + vs.length ≤ 4096
  · rw [writeBytes_ok _ h, writeBytes_ok s h]
    rfl
  · rw [writeBytes_error _ hn (by omega), writeBytes_error s hn (by omega)]
    rfl

theorem pushReturn_withPorts : pushReturn (s.withPorts d e ks) = (pushReturn s).map (·.withPorts d e ks) := by
  by_cases h : s.sp.val < 16
  · rw [pushReturn_ok h, pushReturn_ok (s := s.withPorts d e ks) h]
    rfl
  · have h' : s.sp.val = 16 := by omega
    rw [pushReturn_error h', pushReturn_error (s := s.withPorts d e ks) h']
    rfl

theorem popReturn_withPorts : popReturn (s.withPorts d e ks) = (popReturn s).map (·.withPorts d e ks) := by
  by_cases h : 0 < s.sp.val
  · rw [popReturn_ok h, popReturn_ok (s := s.withPorts d e ks) h]
    rfl
  · have h' : s.sp.val = 0 := by omega
    rw [popReturn_error h', popReturn_error (s := s.withPorts d e ks) h']
    rfl

/-- The outcome `r'` from `s` with other ports is the outcome `r` from `s` with those ports. -/
def SamePorts (r r' : Result) : Prop := ∃ t, r = .next t ∧ r' = .next (t.withPorts d e ks)

variable {s d e ks}

theorem SamePorts.of_finish {r r' : Except Fault State} (hr : r' = r.map (·.withPorts d e ks)) :
    SamePorts d e ks (finish s r) (finish (s.withPorts d e ks) r') := by
  subst hr
  cases r with
  | ok t => exact ⟨t, rfl, rfl⟩
  | error f => exact ⟨s.latch f, rfl, rfl⟩

/-- A write that carries the ports along, then an update that does. -/
theorem SamePorts.of_finish_map {r r' : Except Fault State} {g : State → State} (hr : r' = r.map (·.withPorts d e ks))
    (hg : ∀ u, g (u.withPorts d e ks) = (g u).withPorts d e ks) :
    SamePorts d e ks (finish s (r.map g)) (finish (s.withPorts d e ks) (r'.map g)) := by
  refine SamePorts.of_finish ?_
  subst hr
  cases r with
  | ok u => exact congrArg Except.ok (hg u)
  | error f => rfl

/-- A read that does not see the ports, then an update that carries them along. -/
theorem SamePorts.of_finish_read {α : Type} {r r' : Except Fault α} {g g' : α → State} (hr : r' = r)
    (hg : ∀ a, g' a = (g a).withPorts d e ks) :
    SamePorts d e ks (finish s (r.map g)) (finish (s.withPorts d e ks) (r'.map g')) := by
  refine SamePorts.of_finish ?_
  subst hr
  cases r' with
  | ok a => exact congrArg Except.ok (hg a)
  | error f => rfl

/-- An instruction that looks at no timer and no key does the same whatever they hold, and carries them along. -/
theorem exec_withPorts {i : Instr} (ht : SeesNoTimer i) (hk : SeesNoKey i) :
    SamePorts d e ks (exec i s) (exec i (s.withPorts d e ks)) := by
  cases i with
  | ldVxDT x => exact absurd rfl (ht x).1
  | ldDTVx x => exact absurd rfl (ht x).2.1
  | ldSTVx x => exact absurd rfl (ht x).2.2
  | skpVx x => exact absurd rfl (hk x).1
  | sknpVx x => exact absurd rfl (hk x).2.1
  | ldVxK x => exact absurd rfl (hk x).2.2
  | ret => exact .of_finish (popReturn_withPorts s d e ks)
  | callNNN nnn => exact .of_finish_map (pushReturn_withPorts s d e ks) fun _ => rfl
  | ldBVx x => exact .of_finish_map (writeBytes_withPorts s d e ks _ (decimalDigits_ne_nil _)) fun _ => rfl
  | ldIV x => exact .of_finish_map (writeBytes_withPorts s d e ks _ (v_toList_ne_nil s)) fun _ => rfl
  | drwVxVyN x y n => exact .of_finish_read (readBytes_withPorts s d e ks _ _) fun _ => rfl
  | ldVI x => exact .of_finish_read (readBytes_withPorts s d e ks _ _) fun _ => rfl
  | _ => exact ⟨_, rfl, rfl⟩

/-- An instruction that looks at a key sees the keypad alone, and looks at no timer. -/
theorem exec_keyInstr_withPorts {i : Instr} {x : Reg} (hi : i = .skpVx x ∨ i = .sknpVx x ∨ i = .ldVxK x) :
    SamePorts d e s.keys (exec i s) (exec i (s.withPorts d e s.keys)) := by
  rcases hi with rfl | rfl | rfl
  case inl | inr.inl => exact .of_finish_read rfl fun _ => rfl
  · cases hk : lowestKey s.keys with
    | none => exact ⟨s, exec_ldVxK_of_none hk x, exec_ldVxK_of_none (s := s.withPorts d e s.keys) hk x⟩
    | some k => exact ⟨_, exec_ldVxK_of_some hk x, exec_ldVxK_of_some (s := s.withPorts d e s.keys) hk x⟩

/-- An instruction that looks at a timer sees the timers alone, and looks at no key. -/
theorem exec_timerInstr_withKeys {i : Instr} {x : Reg} (hi : i = .ldVxDT x ∨ i = .ldDTVx x ∨ i = .ldSTVx x) :
    ∃ t, exec i s = .next t ∧ exec i { s with keys := ks } = .next { t with keys := ks } := by
  rcases hi with rfl | rfl | rfl <;> exact ⟨_, rfl, rfl⟩

end Ports

/-- Settles O58: the three key instructions by `exec_keyInstr_withPorts`, all others by `exec_withPorts`; the keypad is
what it was, since no instruction writes it. -/
theorem timersAreUnseenByOtherInstructions : Obligations.TimersAreUnseenByOtherInstructions := by
  intro i s d e ht
  have hports : SamePorts d e s.keys (exec i s) (exec i (s.withPorts d e s.keys)) := by
    by_cases hk : SeesNoKey i
    · exact exec_withPorts ht hk
    · obtain ⟨x, hx⟩ := not_forall.mp hk
      exact exec_keyInstr_withPorts (x := x) (by tauto)
  obtain ⟨t, h, h'⟩ := hports
  refine ⟨t, h, h'.trans ?_⟩
  rw [State.withPorts, ← (exec_writesOwnParts h).keys]

/-- An instruction that looks at no timer writes none. -/
theorem timers_of_seesNoTimer {i : Instr} {s t : State} (hi : SeesNoTimer i) (h : exec i s = .next t) :
    t.dt = s.dt ∧ t.st = s.st := by
  have hw := exec_writesOwnParts h
  constructor
  · by_contra hdt
    obtain ⟨x, hx⟩ := hw.dt hdt
    exact (hi x).2.1 hx
  · by_contra hst
    obtain ⟨x, hx⟩ := hw.st hst
    exact (hi x).2.2 hx

/-- Settles O59: the three timer instructions by themselves, all others by `exec_withPorts`, which leave the timers. -/
theorem keysAreUnseenByOtherInstructions : Obligations.KeysAreUnseenByOtherInstructions := by
  intro i s ks hk
  by_cases ht : SeesNoTimer i
  · obtain ⟨t, h, h'⟩ := exec_withPorts (s := s) (d := s.dt) (e := s.st) (ks := ks) ht hk
    obtain ⟨hdt, hst⟩ := timers_of_seesNoTimer ht h
    refine ⟨t, h, Eq.trans h' ?_⟩
    rw [State.withPorts, ← hdt, ← hst]
  · obtain ⟨x, hx⟩ := not_forall.mp ht
    exact exec_timerInstr_withKeys (x := x) (by tauto)

/-! ## The invariant (R24, R25, R50, R200, R208) -/

/-- A state that agrees with one of the invariant in what the invariant reads has it. -/
theorem inv_of_kept {s t : State} (h : s.Inv) (hmem : t.mem = s.mem) (hpc : t.pc = s.pc) (hstack : t.stack = s.stack)
    (hsp : t.sp = s.sp) (hfault : t.fault = s.fault) (hinfo : t.faultInfo = s.faultInfo) : t.Inv where
  mem_wf := hmem ▸ h.mem_wf
  pc_le := hpc ▸ h.pc_le
  stack_le := hstack ▸ h.stack_le
  latch := by
    have hl := h.latch
    rw [State.LatchSound] at hl ⊢
    rwa [hfault, hinfo, fetch_congr hpc hmem, hpc, hsp]

/-- A latch with no fault is sound where it recorded nothing. -/
theorem latchSound_of_noFault {s : State} (hf : s.fault = .noFault) (hi : s.faultInfo = 0) : s.LatchSound := by
  rw [State.LatchSound, hf]
  exact hi

/-- Taking a fault keeps the invariant where what it records is sound. -/
theorem inv_latch {s : State} (h : s.Inv) {f : Fault} (hf : (s.latch f).LatchSound) : (s.latch f).Inv :=
  ⟨h.mem_wf, h.pc_le, h.stack_le, hf⟩

/-- Where an instruction that completes leaves `pc` (R120), as far as the bound of R24 needs it. -/
inductive NextPc (s : State) : Word → Prop
  | stay : NextPc s s.pc
  | after (c : Bool) : NextPc s (s.pc + if c then 4 else 2)
  | popped (k : Fin 16) : NextPc s s.stack[k.val]
  | target {w : Word} (h : w.toNat ≤ 0x10FE) : NextPc s w

theorem NextPc.advance (s : State) : NextPc s (s.pc + 2) := .after false

theorem zextAddr_toNat_le (nnn : Imm12) : (zextAddr nnn).toNat ≤ 0xFFF := by
  rw [zextAddr, BitVec.toNat_setWidth]
  omega

/-- `0xFFF + 0xFF` is the farthest target (R124). -/
theorem offsetTarget_toNat_le (nnn : Imm12) (b : Byte) : (offsetTarget nnn b).toNat ≤ 0x10FE := by
  have hn := zextAddr_toNat_le nnn
  have hb : (zextByte b).toNat ≤ 0xFF := by
    rw [zextByte, BitVec.toNat_setWidth]
    omega
  rw [offsetTarget, BitVec.toNat_add]
  omega

/-- From a fetched instruction of a state with the invariant, the next `pc` is in bounds. -/
theorem NextPc.toNat_le {s : State} {w : Word} (h : NextPc s w) (hpc : s.pc.toNat < 4095)
    (hstack : ∀ j : Fin 16, (s.stack[j.val]).toNat ≤ 4096) : w.toNat ≤ 0x10FE := by
  cases h with
  | stay => omega
  | after c =>
    have hc : (if c then 4 else 2 : Word).toNat ≤ 4 := by cases c <;> decide
    rw [BitVec.toNat_add]
    omega
  | popped k => exact (hstack k).trans (by decide)
  | target h => exact h

/-- Everything an instruction can do to `pc` and the fault latch: it takes a fault whose record is sound and does nothing
else, or it leaves the latch and moves `pc` as R120 says. -/
theorem exec_cases {i : Instr} {s t : State} (h : exec i s = .next t) :
    (∃ f, t = s.latch f ∧ (s.latch f).LatchSound) ∨
    (t.fault = s.fault ∧ t.faultInfo = s.faultInfo ∧ NextPc s t.pc) := by
  have hbase : s.base < 65536 := s.i.isLt
  cases i with
  | ret =>
    obtain h | ⟨f, hf, rfl⟩ := finish_cases h
    · obtain ⟨hs, rfl⟩ := popReturn_cases h
      exact .inr ⟨rfl, rfl, .popped ⟨s.sp.val - 1, by omega⟩⟩
    · exact .inl ⟨f, rfl, latchSound_of_popReturn_error hf⟩
  | callNNN nnn =>
    obtain ⟨u, hu, rfl⟩ | ⟨f, hf, rfl⟩ := finish_map_cases h
    · obtain ⟨hs, rfl⟩ := pushReturn_cases hu
      exact .inr ⟨rfl, rfl, .target ((zextAddr_toNat_le nnn).trans (by decide))⟩
    · exact .inl ⟨f, rfl, latchSound_of_pushReturn_error hf⟩
  | jpNNN nnn => cases h; exact .inr ⟨rfl, rfl, .target ((zextAddr_toNat_le nnn).trans (by decide))⟩
  | jpVxNNN x nnn => cases h; exact .inr ⟨rfl, rfl, .target (offsetTarget_toNat_le nnn _)⟩
  | seVxNN x nn | sneVxNN x nn | seVxVy x y | sneVxVy x y => cases h; exact .inr ⟨rfl, rfl, .after _⟩
  | skpVx x | sknpVx x =>
    obtain ⟨down, _, rfl⟩ | ⟨f, hf, rfl⟩ := finish_map_cases h
    · exact .inr ⟨rfl, rfl, .after _⟩
    · exact .inl ⟨f, rfl, latchSound_of_readKey_error hf⟩
  | ldVxK x =>
    obtain rfl | ⟨b, rfl⟩ := exec_ldVxK_cases h
    · exact .inr ⟨rfl, rfl, .stay⟩
    · exact .inr ⟨rfl, rfl, .advance s⟩
  | drwVxVyN x y n =>
    obtain ⟨bs, _, rfl⟩ | ⟨f, hf, rfl⟩ := finish_map_cases h
    · exact .inr ⟨rfl, rfl, .advance s⟩
    · exact .inl ⟨f, rfl, latchSound_of_readBytes_error hbase hf⟩
  | ldVI x =>
    obtain ⟨bs, _, rfl⟩ | ⟨f, hf, rfl⟩ := finish_map_cases h
    · refine .inr ⟨?_, ?_, ?_⟩
      · rw [State.advance_fault, State.setAllV_fault]
      · rw [State.advance_faultInfo, State.setAllV_faultInfo]
      · rw [State.advance_pc, State.setAllV_pc]
        exact .advance s
    · exact .inl ⟨f, rfl, latchSound_of_readBytes_error hbase hf⟩
  | ldBVx x | ldIV x =>
    obtain ⟨m, rfl, _⟩ | hf := exec_store_cases ⟨x, by simp⟩ h
    · exact .inr ⟨rfl, rfl, .advance s⟩
    · exact .inl hf
  | _ => cases h; exact .inr ⟨rfl, rfl, .advance s⟩

/-- Only the two stores write memory, and both keep its canonical form (R50). -/
theorem exec_mem_wf {i : Instr} {s t : State} (hs : s.mem.wf) (h : exec i s = .next t) : t.mem.wf := by
  by_cases hm : t.mem = s.mem
  · rwa [hm]
  · obtain ⟨m, rfl, hwf⟩ | ⟨f, rfl, _⟩ := exec_store_cases ((exec_writesOwnParts h).mem hm) h
    · exact hwf hs
    · exact hs

/-- Only CALL writes the stack, and what it pushes is the address after a fetched instruction (R122). -/
theorem exec_stack_le {i : Instr} {s t : State} (hpc : s.pc.toNat < 4095)
    (hs : ∀ j : Fin 16, (s.stack[j.val]).toNat ≤ 4096) (h : exec i s = .next t) :
    ∀ j : Fin 16, (t.stack[j.val]).toNat ≤ 4096 := by
  by_cases hst : t.stack = s.stack
  · rwa [hst]
  · obtain ⟨nnn, rfl⟩ := (exec_writesOwnParts h).stack hst
    obtain ⟨u, hu, rfl⟩ | ⟨f, _, rfl⟩ := finish_map_cases h
    · obtain ⟨_, rfl⟩ := pushReturn_cases hu
      intro j
      have hret : (s.pc + 2).toNat ≤ 4096 := by
        rw [BitVec.toNat_add]
        show (s.pc.toNat + 2) % 65536 ≤ 4096
        omega
      rw [State.jump_stack, Vector.getElem_set]
      split
      · exact hret
      · exact hs j
    · exact hs

/-- A fetched instruction of a running core keeps the invariant. -/
theorem exec_inv {i : Instr} {s t : State} (hi : s.Inv) (hs : s.halted = false) (hpc : s.pc.toNat < 4095)
    (h : exec i s = .next t) : t.Inv := by
  obtain ⟨f, rfl, hf⟩ | ⟨hfault, hinfo, hnext⟩ := exec_cases h
  · exact inv_latch hi hf
  · exact ⟨exec_mem_wf hi.mem_wf h, hnext.toNat_le hpc hi.stack_le, exec_stack_le hpc hi.stack_le h,
      latchSound_of_noFault (hfault.trans (State.running_iff.mp hs).1) (hinfo.trans (faultInfo_of_running hi hs))⟩

theorem cpuStep_inv {s t : State} (hi : s.Inv) (h : cpuStep s = .next t) : t.Inv := by
  obtain ⟨_, rfl⟩ | ⟨_, f, hf, rfl⟩ | ⟨_, ir, e, hf, hd, rfl⟩ | ⟨hs, ir, i, hf, _, h⟩ := cpuStep_cases h
  · exact hi
  · exact inv_latch hi (latchSound_of_fetch_error hf)
  · exact inv_latch hi (latchSound_decodeError hf hd)
  · exact exec_inv hi hs (pc_lt_of_fetch hf) h

/-- Settles O55: memory lists nothing, `pc` is 0x200, the stack is zero and no fault is recorded. -/
theorem resetHasTheInvariant : Obligations.ResetHasTheInvariant where
  mem_wf := Memory.wf_nil
  pc_le := by decide
  stack_le := by decide
  latch := rfl

/-- Reset gives the invariant in every state, with or without an image. -/
theorem restart_inv (s : State) (image : List Byte) : (s.restart image).Inv := by
  have hm := State.restart_mem_wf s image
  have hr := resetHasTheInvariant
  by_cases h : image.length ≤ 3584
  · rw [State.restart_fits h] at hm ⊢
    exact ⟨hm, hr.pc_le, hr.stack_le, rfl⟩
  · rw [State.restart_refused (Nat.not_le.mp h)] at hm ⊢
    exact ⟨hm, hr.pc_le, hr.stack_le, rfl⟩

theorem tick_inv {s : State} (hi : s.Inv) : s.tick.Inv := by
  unfold State.tick
  split
  · exact hi
  · exact inv_of_kept hi rfl rfl rfl rfl rfl rfl

theorem keyEvent_inv {s : State} (hi : s.Inv) (k : Key) (pressed : Bool) : (s.keyEvent k pressed).Inv := by
  unfold State.keyEvent
  split
  · exact hi
  · exact inv_of_kept hi rfl rfl rfl rfl rfl rfl

theorem stop_inv {s : State} (hi : s.Inv) : s.stop.Inv := by
  unfold State.stop
  split
  · exact hi
  · exact inv_of_kept hi rfl rfl rfl rfl rfl rfl

/-- Every action of every agent keeps the invariant (R36). -/
theorem perform_inv {a : Action} {s t : State} (hi : s.Inv) (h : perform a s = .next t) : t.Inv := by
  cases a with
  | step => exact cpuStep_inv hi h
  | tick => cases h; exact tick_inv hi
  | keyEvent k pressed => cases h; exact keyEvent_inv hi k pressed
  | snapshot => cases h; exact hi
  | stop => cases h; exact stop_inv hi
  | restart image => cases h; exact restart_inv s image

/-- Settles O54: the CPU's step where nothing is scheduled, the scheduled action otherwise. -/
theorem everyStepKeepsTheInvariant : Obligations.EveryStepKeepsTheInvariant := by
  intro s t hi h
  cases hq : s.sched with
  | nil => exact cpuStep_inv hi ((step_unscheduled hq).symm.trans h)
  | cons a rest =>
    have hi' : State.Inv { s with sched := rest } := inv_of_kept hi rfl rfl rfl rfl rfl rfl
    exact perform_inv hi' ((step_scheduled hq).symm.trans h)

end Sys2Proof.Machine
end

/-! SUPPORT. Proofs of the statements on memory (spec/20_memory.md): the fetch and the data read, the fault of a memory
instruction past the end, and that a block store is seen by the next fetch. -/

section

namespace Sys2Proof.Machine

open Sys2Proof.Claims

/-! ## The data read and the fetch (R51, R53) -/

theorem memRead_error (s : State) {a : Nat} (h : 4095 < a) : memRead s a = .error (.outOfBoundsAccess a) :=
  if_pos h

/-- The fetched word as a number, the byte at `pc` its high byte (R53, decision D2). -/
theorem fetch_toNat {s : State} (h : s.pc.toNat ≤ 4094) : ∃ ir, fetch s = .ok ir ∧
    ir.toNat = (s.mem.read s.pc.toNat).toNat * 256 + (s.mem.read (s.pc.toNat + 1)).toNat :=
  ⟨_, fetch_ok (by omega), wordOfBytes_toNat _ _⟩

/-! ## The memory instructions past the end (R63, decision D10) -/

/-- An instruction that answers the state before it with a fault latched takes that fault (R208). -/
theorem takesFault_of_exec_latch {i : Instr} {s : State} {f : Fault} (h : exec i s = .next (s.latch f)) :
    TakesFault i s f.kind f.info.toNat :=
  ⟨_, h, rfl, rfl, keptBut_latch s f⟩

/-- An instruction whose access to memory fails takes that access's fault, whatever it would have gone on to do. -/
theorem finish_map_error {α : Type} {s : State} {r : Except Fault α} {f : Fault} (h : r = .error f) (g : α → State) :
    finish s (r.map g) = .next (s.latch f) := by
  rw [h]
  rfl

/-- R150: the register file is sixteen bytes. -/
theorem v_toList_length (s : State) : s.v.toList.length = 16 := Vector.length_toList

/-- The range is checked before anything is read or written, so that the four memory instructions answer alike. -/
theorem exec_outOfBounds {i : Instr} {s : State} (hn : 0 < dataBytes i) (h : 4096 < s.base + dataBytes i) :
    exec i s = .next (s.latch (.outOfBoundsAccess (max s.base 4096))) := by
  cases i with
  | drwVxVyN x y n => exact finish_map_error (readBytes_error s hn h) _
  | ldBVx x => exact finish_map_error (writeBytes_error s (decimalDigits_ne_nil (s.getV x)) h) _
  | ldIV x =>
    have hend : 4096 < s.base + s.v.toList.length := by rwa [v_toList_length]
    exact finish_map_error (writeBytes_error s (v_toList_ne_nil s) hend) _
  | ldVI x => exact finish_map_error (readBytes_error s hn h) _
  | _ => exact absurd hn (Nat.lt_irrefl 0)

/-! ## The block store (R150, decision D25) -/

/-- The memory a block store leaves: the sixteen registers from `I` on. -/
def State.storedMem (s : State) : Memory := s.mem.writeAll s.base s.v.toList

/-- Inside memory the block store writes the registers and goes on, whatever its `X` is. -/
theorem exec_ldIV_inside {s : State} (h : s.base + 16 ≤ 4096) (x : Reg) :
    exec (.ldIV x) s = .next (s.setMem s.storedMem).advance := by
  have hend : s.base + s.v.toList.length ≤ 4096 := by rwa [v_toList_length]
  show finish s ((writeBytes s s.base s.v.toList).map State.advance) = _
  rw [writeBytes_ok s hend]
  rfl

/-- Register `k` stands at `I + k` after the block store. -/
theorem State.read_storedMem {s : State} (hm : s.mem.wf) (k : Reg) : s.storedMem.read (s.base + k.val) = s.getV k := by
  have hlen := v_toList_length s
  rw [State.storedMem, Memory.read_writeAll hm.1, if_pos (by omega), Nat.add_sub_cancel_left, State.v_toList_getD]

/-! ## The statements -/

/-- Settles O13: the fault `exec_outOfBounds` latches, whose address fits the latch's 16 bits. -/
theorem memoryInstructionsFaultWhole : Obligations.MemoryInstructionsFaultWhole := by
  intro s i hn h
  have hinfo : (Fault.outOfBoundsAccess (max s.base 4096)).info.toNat = max s.i.toNat 4096 :=
    outOfBoundsAccess_info_toNat (max_lt s.i.isLt (by decide))
  rw [← hinfo]
  exact takesFault_of_exec_latch (exec_outOfBounds hn (show 4096 < s.i.toNat + dataBytes i by omega))

/-- Settles O39: the two bytes at `pc` are registers `k` and `k + 1`, and the fetch puts the first one high. -/
theorem storedBytesAreFetched : Obligations.StoredBytesAreFetched := by
  intro x s t u k j hm hi ht hu hj hpc
  rw [exec_ldIV_inside (show s.i.toNat + 16 ≤ 4096 by omega) x] at ht
  cases ht
  have hmem : u.mem = s.storedMem := hu
  have hhi : u.mem.read u.pc.toNat = s.getV k := by rw [hmem, hpc]; exact State.read_storedMem hm k
  have hlo : u.mem.read (u.pc.toNat + 1) = s.getV j := by
    rw [hmem, hpc, Nat.add_assoc, ← hj]
    exact State.read_storedMem hm j
  rw [← hhi, ← hlo]
  exact fetch_toNat (by omega)

/-- Settles O8: the word where both bytes lie in memory, else the fault of the lowest address past the end. -/
theorem fetchReadsHighByteFirst : Obligations.FetchReadsHighByteFirst := by
  intro s
  refine ⟨fetch_toNat, fun h => ?_, fun h => ?_⟩
  · rw [fetch_error (by omega), h]
    rfl
  · rw [fetch_error (by omega), max_eq_left (by omega)]

/-- Settles O9: `memRead` faults exactly past the end of memory. -/
theorem dataReadIsBoundsChecked : Obligations.DataReadIsBoundsChecked :=
  fun s _ => ⟨memRead_error s, fun h => memRead_ok s (Nat.lt_succ_of_le h)⟩

end Sys2Proof.Machine
end

/-! SUPPORT. Proofs of the statements on encoding (spec/30_encoding.md): that decoding and encoding are inverse to each
other, from which the rows follow, the words that are rejected, and the nibbles that no instruction uses. -/

section

namespace Sys2Proof

open Sys2Proof.Machine Sys2Proof.Claims Sys2Proof.Laws

/-! ## The words of one format (R72) -/

theorem formatA_eq_iff {op : BitVec 4} {w : Word} : formatA op (Field.nnn w) = w ↔ Field.op w = op := by
  constructor
  · intro h
    rw [← h, Field.op_formatA]
  · rintro rfl
    exact formatA_fields w

theorem formatXB_eq_iff {op : BitVec 4} {w : Word} {nn : Byte} :
    formatXB op (Field.x w) nn = w ↔ Field.op w = op ∧ Field.nn w = nn := by
  constructor
  · intro h
    rw [← h, Field.op_formatXB, Field.nn_formatXB]
    exact ⟨rfl, rfl⟩
  · rintro ⟨rfl, rfl⟩
    exact formatXB_fields w

theorem formatXY_eq_iff {op : BitVec 4} {w : Word} {n : BitVec 4} :
    formatXY op (Field.x w) (Field.y w) n = w ↔ Field.op w = op ∧ Field.nBits w = n := by
  constructor
  · intro h
    rw [← h, Field.op_formatXY, Field.nBits_formatXY]
    exact ⟨rfl, rfl⟩
  · rintro ⟨rfl, rfl⟩
    exact formatXY_fields w

/-! ## What a word decodes to (R74, R80) -/

/-- The instruction is one that an assembler takes, and its word is `w` (R72, R74). -/
def Instr.HasWord (i : Instr) (w : Word) : Prop := i.wellFormed = true ∧ encode i = w

theorem hasWord_of_decodeFamily0 {w : Word} {i : Instr} (h : decodeFamily0 w = .ok i) : i.HasWord w := by
  unfold decodeFamily0 at h
  split at h
  · next hw => cases h; exact ⟨rfl, hw.symm⟩
  · split at h
    · next hw => cases h; exact ⟨rfl, hw.symm⟩
    · cases h

theorem hasWord_of_decodeFamily8 {x y : Reg} {n : BitVec 4} {i : Instr} (h : decodeFamily8 x y n = .ok i) :
    i.HasWord (formatXY 0x8 x y n) := by
  unfold decodeFamily8 at h
  split at h <;> cases h <;> exact ⟨rfl, rfl⟩

theorem hasWord_of_decodeFamilyE {x : Reg} {nn : Byte} {i : Instr} (h : decodeFamilyE x nn = .ok i) :
    i.HasWord (formatXB 0xE x nn) := by
  unfold decodeFamilyE at h
  split at h <;> cases h <;> exact ⟨rfl, rfl⟩

theorem hasWord_of_decodeFamilyF {x : Reg} {nn : Byte} {i : Instr} (h : decodeFamilyF x nn = .ok i) :
    i.HasWord (formatXB 0xF x nn) := by
  unfold decodeFamilyF at h
  split at h <;> cases h <;> exact ⟨rfl, rfl⟩

/-- Each branch of the decision tree of R80 decodes the words of its format. -/
theorem hasWord_of_decode {w : Word} {i : Instr} (h : decode w = .ok i) : i.HasWord w := by
  unfold decode at h
  split at h
  case h_1 => exact hasWord_of_decodeFamily0 h
  case h_6 | h_10 =>
    split at h
    · next hop hn => cases h; exact ⟨rfl, formatXY_eq_iff.mpr ⟨hop, hn⟩⟩
    · cases h
  case h_9 hop => exact formatXY_eq_iff.mpr ⟨hop, rfl⟩ ▸ hasWord_of_decodeFamily8 h
  case h_12 hop => cases h; exact ⟨by simp [Instr.wellFormed], formatA_eq_iff.mpr hop⟩
  case h_14 hop => cases h; exact ⟨rfl, formatXY_eq_iff.mpr ⟨hop, rfl⟩⟩
  case h_15 hop => exact formatXB_eq_iff.mpr ⟨hop, rfl⟩ ▸ hasWord_of_decodeFamilyE h
  case h_16 =>
    have hop : Field.op w = 0xF := family_F_of_ne (by and_intros <;> assumption)
    exact formatXB_eq_iff.mpr ⟨hop, rfl⟩ ▸ hasWord_of_decodeFamilyF h
  case h_2 hop | h_3 hop | h_11 hop => cases h; exact ⟨rfl, formatA_eq_iff.mpr hop⟩
  case h_4 hop | h_5 hop | h_7 hop | h_8 hop | h_13 hop => cases h; exact ⟨rfl, formatXB_eq_iff.mpr ⟨hop, rfl⟩⟩

/-- Settles O5: `hasWord_of_decode`, by the families. -/
theorem encodeAfterDecodeIsIdentity : Obligations.EncodeAfterDecodeIsIdentity :=
  fun _ _ => hasWord_of_decode

/-- Settles O4: the round trips of the instructions one by one. -/
theorem decodeAfterEncodeIsIdentity : Obligations.DecodeAfterEncodeIsIdentity
  | .cls => RoundTrip.cls
  | .ret => RoundTrip.ret
  | .jpNNN nnn => RoundTrip.jpNNN nnn
  | .callNNN nnn => RoundTrip.callNNN nnn
  | .seVxNN x nn => RoundTrip.seVxNN x nn
  | .sneVxNN x nn => RoundTrip.sneVxNN x nn
  | .seVxVy x y => RoundTrip.seVxVy x y
  | .ldVxNN x nn => RoundTrip.ldVxNN x nn
  | .addVxNN x nn => RoundTrip.addVxNN x nn
  | .ldVxVy x y => RoundTrip.ldVxVy x y
  | .orVxVy x y => RoundTrip.orVxVy x y
  | .andVxVy x y => RoundTrip.andVxVy x y
  | .xorVxVy x y => RoundTrip.xorVxVy x y
  | .addVxVy x y => RoundTrip.addVxVy x y
  | .subVxVy x y => RoundTrip.subVxVy x y
  | .shrVx x y => RoundTrip.shrVx x y
  | .subnVxVy x y => RoundTrip.subnVxVy x y
  | .shlVx x y => RoundTrip.shlVx x y
  | .sneVxVy x y => RoundTrip.sneVxVy x y
  | .ldINNN nnn => RoundTrip.ldINNN nnn
  | .jpVxNNN x nnn => RoundTrip.jpVxNNN x nnn
  | .rndVxNN x nn => RoundTrip.rndVxNN x nn
  | .drwVxVyN x y n => RoundTrip.drwVxVyN x y n
  | .skpVx x => RoundTrip.skpVx x
  | .sknpVx x => RoundTrip.sknpVx x
  | .ldVxDT x => RoundTrip.ldVxDT x
  | .ldVxK x => RoundTrip.ldVxK x
  | .ldDTVx x => RoundTrip.ldDTVx x
  | .ldSTVx x => RoundTrip.ldSTVx x
  | .addIVx x => RoundTrip.addIVx x
  | .ldFVx x => RoundTrip.ldFVx x
  | .ldBVx x => RoundTrip.ldBVx x
  | .ldIV x => RoundTrip.ldIV x
  | .ldVI x => RoundTrip.ldVI x

/-- Decoding and encoding are inverse to each other. -/
theorem decode_eq_ok_iff {w : Word} {i : Instr} : decode w = .ok i ↔ i.HasWord w := by
  refine ⟨hasWord_of_decode, ?_⟩
  rintro ⟨hwf, rfl⟩
  exact decodeAfterEncodeIsIdentity i hwf

/-! ## The rows (R74) -/

section Rows

variable {f : Word → Instr}

/-- A row holds where its mask and match pick the words that its instruction, with their fields, encodes to. -/
theorem isRow_of_hasWord {mask bits : Word} {g : Word → Word} (hf : ∀ w, (f w).HasWord (g w))
    (h : ∀ w, w &&& mask = bits ↔ g w = w) : IsRow mask bits f := fun w => by
  obtain ⟨hwf, he⟩ := hf w
  rw [h, decode_eq_ok_iff, Instr.HasWord, he, and_iff_right hwf]

/-- A row without operands: the whole word is fixed. -/
theorem isRow_word {bits : Word} (hf : ∀ w, (f w).HasWord bits) : IsRow 0xFFFF bits f :=
  isRow_of_hasWord hf fun w => by rw [show w &&& 0xFFFF = w from BitVec.and_allOnes, eq_comm]

/-- A row of format A fixes the family; the rest of the word is `NNN`. -/
theorem isRow_formatA (op : BitVec 4) (hf : ∀ w, (f w).HasWord (formatA op (Field.nnn w))) :
    IsRow 0xF000 (formatA op 0) f :=
  isRow_of_hasWord hf fun w => (mask_family_iff w op).trans formatA_eq_iff.symm

/-- A row of format XB fixes the family; the rest of the word is `X` and `NN`. -/
theorem isRow_formatXB (op : BitVec 4) (hf : ∀ w, (f w).HasWord (formatXB op (Field.x w) (Field.nn w))) :
    IsRow 0xF000 (formatA op 0) f :=
  isRow_of_hasWord hf fun w => (mask_family_iff w op).trans <| by rw [formatXB_eq_iff, and_iff_left rfl]

/-- A row of format XYN fixes the family; the rest of the word is `X`, `Y` and `N`. -/
theorem isRow_formatXYN (op : BitVec 4)
    (hf : ∀ w, (f w).HasWord (formatXY op (Field.x w) (Field.y w) (Field.nBits w))) :
    IsRow 0xF000 (formatA op 0) f :=
  isRow_of_hasWord hf fun w => (mask_family_iff w op).trans <| by rw [formatXY_eq_iff, and_iff_left rfl]

/-- A row of format XY fixes the family and the low nibble. -/
theorem isRow_formatXY (op n : BitVec 4) (hf : ∀ w, (f w).HasWord (formatXY op (Field.x w) (Field.y w) n)) :
    IsRow 0xF00F (formatA op (n.setWidth 12)) f :=
  isRow_of_hasWord hf fun w => (mask_family_nibble_iff w op n).trans formatXY_eq_iff.symm

/-- A row of format XF fixes the family and the low byte. -/
theorem isRow_formatXF (op : BitVec 4) (nn : Byte) (hf : ∀ w, (f w).HasWord (formatXB op (Field.x w) nn)) :
    IsRow 0xF0FF (formatA op (nn.setWidth 12)) f :=
  isRow_of_hasWord hf fun w => (mask_family_byte_iff w op nn).trans formatXB_eq_iff.symm

end Rows

theorem isRow_shrVx : IsRow 0xF00F 0x8006 fun w => .shrVx (Field.x w) (Field.y w) :=
  isRow_formatXY 0x8 0x6 fun _ => ⟨rfl, rfl⟩

theorem isRow_shlVx : IsRow 0xF00F 0x800E fun w => .shlVx (Field.x w) (Field.y w) :=
  isRow_formatXY 0x8 0xE fun _ => ⟨rfl, rfl⟩

theorem isRow_ldIV : IsRow 0xF0FF 0xF055 fun w => .ldIV (Field.x w) :=
  isRow_formatXF 0xF 0x55 fun _ => ⟨rfl, rfl⟩

theorem isRow_ldVI : IsRow 0xF0FF 0xF065 fun w => .ldVI (Field.x w) :=
  isRow_formatXF 0xF 0x65 fun _ => ⟨rfl, rfl⟩

/-- The one row whose instruction an assembler may refuse: the register is the top nibble of `NNN` (R78). -/
theorem isRow_jpVxNNN : IsRow 0xF000 0xB000 fun w => .jpVxNNN (Field.x w) (Field.nnn w) :=
  isRow_formatA 0xB fun _ => ⟨by simp [Instr.wellFormed], rfl⟩

/-- Settles O1: each row by its format. -/
theorem everyRowDecodesWithItsFields : Obligations.EveryRowDecodesWithItsFields where
  left :=
    ⟨isRow_word fun _ => ⟨rfl, rfl⟩, isRow_word fun _ => ⟨rfl, rfl⟩,
     isRow_formatA 0x1 fun _ => ⟨rfl, rfl⟩, isRow_formatA 0x2 fun _ => ⟨rfl, rfl⟩,
     isRow_formatXB 0x3 fun _ => ⟨rfl, rfl⟩, isRow_formatXB 0x4 fun _ => ⟨rfl, rfl⟩,
     isRow_formatXY 0x5 0x0 fun _ => ⟨rfl, rfl⟩,
     isRow_formatXB 0x6 fun _ => ⟨rfl, rfl⟩, isRow_formatXB 0x7 fun _ => ⟨rfl, rfl⟩⟩
  right :=
    ⟨⟨isRow_formatXY 0x8 0x0 fun _ => ⟨rfl, rfl⟩, isRow_formatXY 0x8 0x1 fun _ => ⟨rfl, rfl⟩,
      isRow_formatXY 0x8 0x2 fun _ => ⟨rfl, rfl⟩, isRow_formatXY 0x8 0x3 fun _ => ⟨rfl, rfl⟩,
      isRow_formatXY 0x8 0x4 fun _ => ⟨rfl, rfl⟩, isRow_formatXY 0x8 0x5 fun _ => ⟨rfl, rfl⟩,
      isRow_shrVx, isRow_formatXY 0x8 0x7 fun _ => ⟨rfl, rfl⟩, isRow_shlVx,
      isRow_formatXY 0x9 0x0 fun _ => ⟨rfl, rfl⟩⟩,
     ⟨isRow_formatA 0xA fun _ => ⟨rfl, rfl⟩, isRow_jpVxNNN, isRow_formatXB 0xC fun _ => ⟨rfl, rfl⟩,
      isRow_formatXYN 0xD fun _ => ⟨rfl, rfl⟩,
      isRow_formatXF 0xE 0x9E fun _ => ⟨rfl, rfl⟩, isRow_formatXF 0xE 0xA1 fun _ => ⟨rfl, rfl⟩⟩,
     isRow_formatXF 0xF 0x07 fun _ => ⟨rfl, rfl⟩, isRow_formatXF 0xF 0x0A fun _ => ⟨rfl, rfl⟩,
     isRow_formatXF 0xF 0x15 fun _ => ⟨rfl, rfl⟩, isRow_formatXF 0xF 0x18 fun _ => ⟨rfl, rfl⟩,
     isRow_formatXF 0xF 0x1E fun _ => ⟨rfl, rfl⟩, isRow_formatXF 0xF 0x29 fun _ => ⟨rfl, rfl⟩,
     isRow_formatXF 0xF 0x33 fun _ => ⟨rfl, rfl⟩, isRow_ldIV, isRow_ldVI⟩

/-! ## The words that are rejected (R75) -/

/-- The words of each class of R75, by their fields. -/
def Illegal.Describes (w : Word) : Illegal → Prop
  | .family0 => Field.op w = 0x0 ∧ w ≠ 0x00E0 ∧ w ≠ 0x00EE
  | .family5 => Field.op w = 0x5 ∧ Field.nBits w ≠ 0
  | .family8 => Field.op w = 0x8 ∧ Field.nBits w ∉ [0x0, 0x1, 0x2, 0x3, 0x4, 0x5, 0x6, 0x7, 0xE]
  | .family9 => Field.op w = 0x9 ∧ Field.nBits w ≠ 0
  | .familyE => Field.op w = 0xE ∧ Field.nn w ∉ [0x9E, 0xA1]
  | .familyF => Field.op w = 0xF ∧ Field.nn w ∉ [0x07, 0x0A, 0x15, 0x18, 0x1E, 0x29, 0x33, 0x55, 0x65]
  | .truncated => False

/-- A word is rejected by one class alone. -/
theorem error_eq_error_iff_of {a e : Illegal} {p : Prop} (hp : p) :
    (.error a : Except Illegal Instr) = .error e ↔ e = a ∧ p := by
  rw [and_iff_left hp, Except.error.injEq, eq_comm]

theorem decodeFamily0_eq_error_iff {w : Word} {e : Illegal} :
    decodeFamily0 w = .error e ↔ e = .family0 ∧ w ≠ 0x00E0 ∧ w ≠ 0x00EE := by
  unfold decodeFamily0
  split
  · simp [*]
  · split
    · simp [*]
    · exact error_eq_error_iff_of ⟨‹_›, ‹_›⟩

theorem decodeFamily8_eq_error_iff {x y : Reg} {n : BitVec 4} {e : Illegal} :
    decodeFamily8 x y n = .error e ↔ e = .family8 ∧ n ∉ [0x0, 0x1, 0x2, 0x3, 0x4, 0x5, 0x6, 0x7, 0xE] := by
  unfold decodeFamily8
  split
  case h_10 => exact error_eq_error_iff_of (by simp_all)
  all_goals simp

theorem decodeFamilyE_eq_error_iff {x : Reg} {nn : Byte} {e : Illegal} :
    decodeFamilyE x nn = .error e ↔ e = .familyE ∧ nn ∉ [0x9E, 0xA1] := by
  unfold decodeFamilyE
  split
  case h_3 => exact error_eq_error_iff_of (by simp_all)
  all_goals simp

theorem decodeFamilyF_eq_error_iff {x : Reg} {nn : Byte} {e : Illegal} :
    decodeFamilyF x nn = .error e ↔
      e = .familyF ∧ nn ∉ [0x07, 0x0A, 0x15, 0x18, 0x1E, 0x29, 0x33, 0x55, 0x65] := by
  unfold decodeFamilyF
  split
  case h_10 => exact error_eq_error_iff_of (by simp_all)
  all_goals simp

/-- Only six of the sixteen families reject a word (R75). -/
theorem describes_of_decode {w : Word} {e : Illegal} (h : decode w = .error e) : e.Describes w := by
  unfold decode at h
  split at h
  case h_1 hop =>
    obtain ⟨rfl, hw⟩ := decodeFamily0_eq_error_iff.mp h
    exact ⟨hop, hw⟩
  case h_6 hop | h_10 hop =>
    split at h
    · cases h
    · next hn => cases h; exact ⟨hop, hn⟩
  case h_9 hop =>
    obtain ⟨rfl, hn⟩ := decodeFamily8_eq_error_iff.mp h
    exact ⟨hop, hn⟩
  case h_15 hop =>
    obtain ⟨rfl, hnn⟩ := decodeFamilyE_eq_error_iff.mp h
    exact ⟨hop, hnn⟩
  case h_16 =>
    obtain ⟨rfl, hnn⟩ := decodeFamilyF_eq_error_iff.mp h
    exact ⟨family_F_of_ne (by and_intros <;> assumption), hnn⟩
  all_goals cases h

theorem decode_of_describes {w : Word} {e : Illegal} (h : e.Describes w) : decode w = .error e := by
  cases e with
  | family0 =>
    obtain ⟨hop, hw⟩ := h
    simpa [decode, hop] using decodeFamily0_eq_error_iff.mpr ⟨rfl, hw⟩
  | family5 | family9 =>
    obtain ⟨hop, hn⟩ := h
    simpa [decode, hop] using hn
  | family8 =>
    obtain ⟨hop, hn⟩ := h
    simpa [decode, hop] using decodeFamily8_eq_error_iff.mpr ⟨rfl, hn⟩
  | familyE =>
    obtain ⟨hop, hnn⟩ := h
    simpa [decode, hop] using decodeFamilyE_eq_error_iff.mpr ⟨rfl, hnn⟩
  | familyF =>
    obtain ⟨hop, hnn⟩ := h
    simpa [decode, hop] using decodeFamilyF_eq_error_iff.mpr ⟨rfl, hnn⟩
  | truncated => exact h.elim

theorem decode_eq_error_iff {w : Word} {e : Illegal} : decode w = .error e ↔ e.Describes w :=
  ⟨describes_of_decode, decode_of_describes⟩

/-! The fields of a word as numbers, in the form the classes name them. -/

theorem Field.op_eq_iff {w : Word} {k : BitVec 4} : Field.op w = k ↔ w.toNat / 4096 = k.toNat := by
  rw [← BitVec.toNat_inj, Field.op_toNat]

theorem Field.nBits_eq_iff {w : Word} {k : BitVec 4} : Field.nBits w = k ↔ w.toNat % 16 = k.toNat := by
  rw [← BitVec.toNat_inj, Field.nBits_toNat]

theorem Field.nn_eq_iff {w : Word} {k : Byte} : Field.nn w = k ↔ w.toNat % 256 = k.toNat := by
  rw [← BitVec.toNat_inj, Field.nn_toNat]

/-- Settles O2: the words of each class by their fields, as numbers. -/
theorem illegalWordsAreTheListedOnes : Obligations.IllegalWordsAreTheListedOnes := by
  intro w
  refine ⟨decode_eq_error_iff.trans ?_, decode_eq_error_iff.trans ?_, decode_eq_error_iff.trans ?_,
    decode_eq_error_iff.trans ?_, decode_eq_error_iff.trans ?_, decode_eq_error_iff.trans ?_, describes_of_decode⟩
  · rw [Illegal.Describes, Field.op_eq_iff, ne_eq, ne_eq, ← BitVec.toNat_inj, ← BitVec.toNat_inj]
    simp
  · exact and_congr Field.op_eq_iff (not_congr Field.nBits_eq_iff)
  · simp only [Illegal.Describes, Field.op_eq_iff, Field.nBits_eq_iff, List.mem_cons, List.not_mem_nil, or_false,
      BitVec.ofNat_eq_ofNat, BitVec.toNat_ofNat]
    omega
  · exact and_congr Field.op_eq_iff (not_congr Field.nBits_eq_iff)
  · simp [Illegal.Describes, Field.op_eq_iff, Field.nn_eq_iff]
  · simp [Illegal.Describes, Field.op_eq_iff, Field.nn_eq_iff]

/-! ## The unused nibbles (R77, decision D25) -/

/-- Words that agree under a mask agree under every part of it. -/
theorem and_eq_and_of_submask {w u m k : Word} (h : w &&& m = u &&& m) (hk : m &&& k = k) : w &&& k = u &&& k := by
  rw [← hk, ← BitVec.and_assoc, h, BitVec.and_assoc]

/-- Two words of one row that differ only where the row fixes nothing act alike where their instructions do. -/
theorem alike_of_isRow {mask bits m w u : Word} {f : Word → Instr} {s : State} (hrow : IsRow mask bits f)
    (hm : m &&& mask = mask) (h : w &&& m = u &&& m) (hw : w &&& mask = bits) (hexec : exec (f w) s = exec (f u) s) :
    ∃ i i', decode w = .ok i ∧ decode u = .ok i' ∧ exec i s = exec i' s :=
  ⟨_, _, (hrow w).mp hw, (hrow u).mp ((and_eq_and_of_submask h hm).symm.trans hw), hexec⟩

/-- `X` stands under the mask that leaves out `Y` alone. -/
theorem Field.x_eq_of_mask {w u : Word} (h : w &&& 0xFF0F = u &&& 0xFF0F) : Field.x w = Field.x u := by
  have hx (v : Word) : Field.x (v &&& 0xFF0F) = Field.x v := by
    rw [Field.x, BitVec.extractLsb'_and]
    exact congrArg _ BitVec.and_allOnes
  rw [← hx w, h, hx]

/-! The four instructions with an unused nibble do the same whatever it is (R77; R150 and R152 by decision D25). -/

theorem exec_shrVx_ignores_y (x y y' : Reg) (s : State) : exec (.shrVx x y) s = exec (.shrVx x y') s := rfl

theorem exec_shlVx_ignores_y (x y y' : Reg) (s : State) : exec (.shlVx x y) s = exec (.shlVx x y') s := rfl

theorem exec_ldIV_ignores_x (x x' : Reg) (s : State) : exec (.ldIV x) s = exec (.ldIV x') s := rfl

theorem exec_ldVI_ignores_x (x x' : Reg) (s : State) : exec (.ldVI x) s = exec (.ldVI x') s := rfl

/-- Settles O6: both words are of one row, and its instruction does not use the nibble they differ in. -/
theorem unusedNibblesDoNotMatter : Obligations.UnusedNibblesDoNotMatter := by
  intro w u s
  refine ⟨fun h hw => ?_, fun h hw => ?_⟩
  · have hx := Field.x_eq_of_mask h
    obtain hw | hw := hw
    · exact alike_of_isRow isRow_shrVx (by decide) h hw (hx ▸ exec_shrVx_ignores_y _ _ _ s)
    · exact alike_of_isRow isRow_shlVx (by decide) h hw (hx ▸ exec_shlVx_ignores_y _ _ _ s)
  · obtain hw | hw := hw
    · exact alike_of_isRow isRow_ldIV (by decide) h hw (exec_ldIV_ignores_x _ _ s)
    · exact alike_of_isRow isRow_ldVI (by decide) h hw (exec_ldVI_ignores_x _ _ s)

/-! ## The fields and the sample words (R71, R74) -/

/-- Settles O3, one law of the fields each. -/
theorem fieldsStandAtTheirBits : Obligations.FieldsStandAtTheirBits := fun w =>
  ⟨Field.op_toNat w, Field.x_val w, Field.y_val w, Field.n_val w, Field.nn_toNat w, Field.nnn_toNat w⟩

/-- Settles O7: the decoder runs on each word. -/
theorem sampleWordsDecode : Obligations.SampleWordsDecode := ⟨rfl, rfl, rfl, rfl, rfl, rfl, rfl, rfl⟩

end Sys2Proof
end

/-! SUPPORT. Proofs of the statements on the register and ALU instructions (spec/40_alu.md): the frame of an instruction
that writes general registers and goes on, the three ways such an instruction writes them, and the results and flags of
R100 as numbers. -/

section

namespace Sys2Proof.Claims

open Sys2Proof.Machine

/-! ## Frames, one update at a time -/

theorem KeptBut.refl (ps : List Part) (s : State) : KeptBut ps s s := fun p _ => by
  cases p <;> simp [Part.kept]

theorem RegsKeptBut.refl (rs : List Reg) (s : State) : RegsKeptBut rs s s := fun _ _ => rfl

section

variable {ps : List Part} {rs : List Reg} {s t : State}

theorem KeptBut.setV (h : KeptBut ps s t) (hv : .v ∈ ps) (x : Reg) (b : Byte) : KeptBut ps s (t.setV x b) := fun p hp => by
  cases p with
  | v => exact absurd hv hp
  | _ => exact h _ hp

theorem KeptBut.advance (h : KeptBut ps s t) (hpc : .pc ∈ ps) : KeptBut ps s t.advance := fun p hp => by
  cases p with
  | pc => exact absurd hpc hp
  | _ => exact h _ hp

theorem KeptBut.sampled (h : KeptBut ps s t) (hr : .rnd ∈ ps) : KeptBut ps s t.sampled := fun p hp => by
  cases p with
  | rnd => exact absurd hr hp
  | _ => exact h _ hp

theorem RegsKeptBut.setV (h : RegsKeptBut rs s t) {x : Reg} (hx : x ∈ rs) (b : Byte) :
    RegsKeptBut rs s (t.setV x b) := fun r hr => by
  rw [State.getV_setV_other t b (ne_of_mem_of_not_mem hx hr).symm]
  exact h r hr

theorem RegsKeptBut.setFlag (h : RegsKeptBut rs s t) (hf : VF ∈ rs) (f : Bool) : RegsKeptBut rs s (t.setFlag f) :=
  h.setV hf _

end

end Sys2Proof.Claims

namespace Sys2Proof.Machine

open Sys2Proof.Claims

/-! ## Results and flags as numbers (R100) -/

theorem sumByte_toNat (a b : Byte) : (sumByte a b).toNat = (a.toNat + b.toNat) % 256 := BitVec.toNat_ofNat _ _

theorem differenceByte_toNat (a b : Byte) : ((differenceByte a b).toNat : Int) = (a.toNat - b.toNat : Int) % 256 := by
  rw [differenceByte, BitVec.toNat_ofNat]
  omega

theorem halfByte_toNat (a : Byte) : (halfByte a).toNat = a.toNat / 2 := by
  rw [halfByte, BitVec.toNat_ofNat]
  omega

theorem doubleByte_toNat (a : Byte) : (doubleByte a).toNat = a.toNat * 2 % 256 := BitVec.toNat_ofNat _ _

/-- The flag of a condition on numbers, as the statements write it. -/
theorem flagByte_decide_toNat (p : Prop) [Decidable p] : (flagByte (decide p)).toNat = if p then 1 else 0 := by
  by_cases hp : p <;> simp [flagByte, hp]

/-- The bit a right shift drops is the remainder (R109). -/
theorem flagByte_lowBit_toNat (a : Byte) : (flagByte (lowBit a)).toNat = a.toNat % 2 := by
  rw [lowBit, BitVec.getLsbD, Nat.testBit_zero, flagByte_decide_toNat]
  split <;> omega

/-- The bit a left shift drops says whether the byte is at least 128 (R111). -/
theorem highBit_eq (a : Byte) : highBit a = decide (128 ≤ a.toNat) :=
  (BitVec.msb_eq_getLsbD_last a).symm.trans (BitVec.msb_eq_decide a)

theorem flagByte_highBit_toNat (a : Byte) : (flagByte (highBit a)).toNat = a.toNat / 128 := by
  rw [highBit_eq, flagByte_decide_toNat]
  split <;> omega

/-- SHL of `VF` leaves twice the old top bit (decision D7). -/
theorem doubleByte_flagByte_highBit_toNat (a : Byte) :
    (doubleByte (flagByte (highBit a))).toNat = if a.toNat ≥ 128 then 2 else 0 := by
  rw [doubleByte_toNat, flagByte_highBit_toNat]
  split <;> omega

/-! ## The three ways of writing registers -/

/-- From `s` to `t` the listed general registers are written, `pc` moves to the next instruction, and nothing else changes:
the frame of this family but for RND, which also takes a sample. -/
def WritesAndAdvances (rs : List Reg) (s t : State) : Prop :=
  RegsKeptBut rs s t ∧ t.pc = s.pc + 2 ∧ KeptBut [.v, .pc] s t

section

variable {i : Instr} {s : State} {x : Reg} {b : Byte} {f : Bool}

/-- One register is written and no flag (R101 to R106). -/
theorem exec_writesOneRegister (h : exec i s = .next (s.setV x b).advance) :
    ∃ t, exec i s = .next t ∧ t.getV x = b ∧ WritesAndAdvances [x] s t :=
  ⟨_, h, State.getV_setV_same s x b, (RegsKeptBut.refl _ s).setV (by simp) b, rfl,
    ((KeptBut.refl _ s).setV (by simp) x b).advance (by simp)⟩

/-- The flag is written after the result, and so survives where the result goes to `VF` (decision D6). -/
theorem exec_writesResultThenFlag (h : exec i s = writeResultThenFlag x b f s) :
    ∃ t, exec i s = .next t ∧ (x ≠ VF → t.getV x = b) ∧ t.getV VF = flagByte f ∧ WritesAndAdvances [x, VF] s t := by
  refine ⟨_, h, fun hx => ?_, State.getV_setFlag_VF _ f, ?_, rfl, ?_⟩
  · rw [State.advance_getV, State.getV_setFlag_other _ f hx, State.getV_setV_same]
  · exact ((RegsKeptBut.refl _ s).setV (by simp) b).setFlag (by simp) f
  · exact (((KeptBut.refl _ s).setV (by simp) x b).setV (by simp) VF _).advance (by simp)

/-- The flag is written before the result is computed, so that where the operand is `VF` the flag is what is shifted
(decision D7). -/
theorem exec_writesFlagThenResult {g : Byte → Byte}
    (h : exec i s = .next ((s.setFlag f).setV x (g ((s.setFlag f).getV x))).advance) :
    ∃ t, exec i s = .next t ∧ (x ≠ VF → t.getV x = g (s.getV x) ∧ t.getV VF = flagByte f) ∧
      (x = VF → t.getV VF = g (flagByte f)) ∧ WritesAndAdvances [x, VF] s t := by
  have hVF := getV_VF_of_flagThenResult s x f g
  refine ⟨_, h, fun hx => ⟨?_, by rw [hVF, if_neg hx]⟩, fun hx => by rw [hVF, if_pos hx], ?_, rfl, ?_⟩
  · rw [State.advance_getV, State.getV_setV_same, State.getV_setFlag_other s f hx]
  · exact ((RegsKeptBut.refl _ s).setFlag (by simp) f).setV (by simp) _
  · exact (((KeptBut.refl _ s).setV (by simp) VF _).setV (by simp) x _).advance (by simp)

/-- R108 and R110 differ in which operand is the minuend alone. -/
theorem exec_subtracts {a c : Byte} (h : exec i s = writeResultThenFlag x (differenceByte a c) (noBorrow a c) s) :
    ∃ t, exec i s = .next t ∧ (x ≠ VF → ((t.getV x).toNat : Int) = (a.toNat - c.toNat : Int) % 256) ∧
      (t.getV VF).toNat = (if a.toNat ≥ c.toNat then 1 else 0) ∧ WritesAndAdvances [x, VF] s t := by
  obtain ⟨t, ht, hx, hf, hframe⟩ := exec_writesResultThenFlag h
  exact ⟨t, ht, fun h => by rw [hx h, differenceByte_toNat], by rw [hf, noBorrow, flagByte_decide_toNat], hframe⟩

/-- R104, R105 and R106 differ in the operation on the bits alone. -/
theorem exec_writesBits {op : Bool → Bool → Bool} {a c : Byte} (h : exec i s = .next (s.setV x b).advance)
    (hb : ∀ k, b.getLsbD k = op (a.getLsbD k) (c.getLsbD k)) :
    ∃ t, exec i s = .next t ∧ (∀ k, k < 8 → (t.getV x).getLsbD k = op (a.getLsbD k) (c.getLsbD k)) ∧
      WritesAndAdvances [x] s t := by
  obtain ⟨t, ht, hx, hframe⟩ := exec_writesOneRegister h
  exact ⟨t, ht, fun k _ => by rw [hx, hb], hframe⟩

end

/-! ## The statements -/

/-- Settles O19: both write one register. -/
theorem loadsWriteOneRegister : Obligations.LoadsWriteOneRegister :=
  ⟨fun _ _ _ => exec_writesOneRegister rfl, fun _ _ _ => exec_writesOneRegister rfl⟩

/-- Settles O20: the row is one of format XB, and the one register written holds the sum. -/
theorem addImmediateWrapsWithoutFlag : Obligations.AddImmediateWrapsWithoutFlag := by
  refine ⟨isRow_formatXB 0x7 fun _ => ⟨rfl, rfl⟩, fun x nn s => ?_⟩
  obtain ⟨t, ht, hx, hframe⟩ := exec_writesOneRegister (i := .addVxNN x nn) (s := s) rfl
  exact ⟨t, ht, by rw [hx, sumByte_toNat], hframe⟩

/-- Settles O21: each operation on bytes is the one on their bits. -/
theorem bitwiseOperationsTouchNoFlag : Obligations.BitwiseOperationsTouchNoFlag := fun _ _ _ =>
  ⟨exec_writesBits (op := or) rfl fun _ => BitVec.getLsbD_or, exec_writesBits (op := and) rfl fun _ => BitVec.getLsbD_and,
    exec_writesBits (op := xor) rfl fun _ => BitVec.getLsbD_xor⟩

/-- Settles O22: the sum, then the carry as the flag. -/
theorem addRegistersSetsCarry : Obligations.AddRegistersSetsCarry := by
  intro x y s
  obtain ⟨t, ht, hx, hf, hframe⟩ := exec_writesResultThenFlag (i := .addVxVy x y) (s := s) rfl
  exact ⟨t, ht, fun h => by rw [hx h, sumByte_toNat], by rw [hf, carryOut, flagByte_decide_toNat], hframe⟩

/-- Settles O23: SUB has `V[X]` as its minuend, SUBN `V[Y]`. -/
theorem subtractionsSetNoBorrow : Obligations.SubtractionsSetNoBorrow := fun _ _ _ =>
  ⟨exec_subtracts rfl, exec_subtracts rfl⟩

/-- Settles O24: the bit shifted out, then the shift of what `V[X]` is by then. -/
theorem shiftsMoveOneBitIntoFlag : Obligations.ShiftsMoveOneBitIntoFlag := by
  intro x y s
  constructor
  · obtain ⟨t, ht, hne, heq, hframe⟩ :=
      exec_writesFlagThenResult (i := .shrVx x y) (s := s) (g := halfByte) rfl
    refine ⟨t, ht, fun h => ?_, fun h => by rw [heq h, halfByte_flagByte]; rfl, hframe⟩
    obtain ⟨hx, hf⟩ := hne h
    rw [hx, hf]
    exact ⟨halfByte_toNat _, flagByte_lowBit_toNat _⟩
  · obtain ⟨t, ht, hne, heq, hframe⟩ :=
      exec_writesFlagThenResult (i := .shlVx x y) (s := s) (g := doubleByte) rfl
    refine ⟨t, ht, fun h => ?_, fun h => ?_, hframe⟩
    · obtain ⟨hx, hf⟩ := hne h
      rw [hx, hf]
      exact ⟨doubleByte_toNat _, flagByte_highBit_toNat _⟩
    · rw [heq h, h]
      exact doubleByte_flagByte_highBit_toNat _

/-- Settles O25: the one register written holds the sample under the mask, whatever the sample is. -/
theorem randomIsMaskedAndSampledOnce : Obligations.RandomIsMaskedAndSampledOnce := by
  intro x nn s
  have hx : (s.sampled.setV x (Config.rndIn s.rndSamples &&& nn)).advance.getV x = Config.rndIn s.rndSamples &&& nn :=
    State.getV_setV_same _ _ _
  refine ⟨_, rfl, fun k _ => ?_, ?_, fun hnn => ?_, rfl, ?_, rfl, ?_⟩
  · rw [hx, BitVec.getLsbD_and]
  · rw [hx, BitVec.and_assoc, BitVec.and_not_self]
    exact BitVec.and_zero
  · rw [hx, hnn]
    exact BitVec.and_allOnes
  · exact (RegsKeptBut.refl [x] s.sampled).setV (by simp) _
  · exact (((KeptBut.refl _ s).sampled (by simp)).setV (by simp) x _).advance (by simp)

end Sys2Proof.Machine
end

/-! SUPPORT. Proofs of the statements on control transfer (spec/41_control.md): the targets as numbers, the states that CALL
and RET leave, the skips, and where an instruction that takes no fault leaves `pc`. -/

section

namespace Sys2Proof.Claims

open Sys2Proof.Machine

theorem KeptBut.jump {ps : List Part} {s t : State} (h : KeptBut ps s t) (hpc : .pc ∈ ps) (w : Word) :
    KeptBut ps s (t.jump w) := fun p hp => by
  cases p with
  | pc => exact absurd hpc hp
  | _ => exact h _ hp

/-- No instruction checks where it leaves `pc`; the next fetch does (R53, R120, decision D17). -/
theorem nextFetchChecks (t : State) : NextFetchChecks t := fun h => ⟨_, fetch_error (by omega)⟩

end Sys2Proof.Claims

namespace Sys2Proof.Machine

open Sys2Proof.Claims

/-! ## Targets as numbers (R73, R124) -/

theorem zextAddr_toNat (nnn : Imm12) : (zextAddr nnn).toNat = nnn.toNat :=
  BitVec.toNat_setWidth_of_le (by decide)

theorem zextByte_toNat (b : Byte) : (zextByte b).toNat = b.toNat :=
  BitVec.toNat_setWidth_of_le (by decide)

/-- The 16-bit sum never wraps: it is at most 0x10FE. -/
theorem offsetTarget_toNat (nnn : Imm12) (b : Byte) : (offsetTarget nnn b).toNat = nnn.toNat + b.toNat := by
  rw [offsetTarget, BitVec.toNat_add, zextAddr_toNat, zextByte_toNat]
  omega

/-! ## JP (R123, R124) -/

/-- An instruction that only jumps writes `pc` alone. -/
theorem exec_jumps {i : Instr} {s : State} {w : Word} {n : Nat} (h : exec i s = .next (s.jump w)) (hw : w.toNat = n) :
    ∃ t, exec i s = .next t ∧ t.pc.toNat = n ∧ KeptBut [.pc] s t :=
  ⟨_, h, hw, (KeptBut.refl _ s).jump (by simp) w⟩

/-- Settles O26: a jump to the `pc` that is there already writes it again. -/
theorem jumpWritesTheTarget : Obligations.JumpWritesTheTarget := by
  refine ⟨fun nnn s => exec_jumps rfl (zextAddr_toNat nnn), fun nnn s hpc => ?_⟩
  have hw : zextAddr nnn = s.pc := BitVec.eq_of_toNat_eq ((zextAddr_toNat nnn).trans hpc.symm)
  show Host.Outcome.next (s.jump (zextAddr nnn)) = .next s
  rw [hw]
  rfl

/-- Settles O27: the row, the register in the top nibble of `NNN`, and the sum as a number. -/
theorem offsetJumpAddsTheNamedRegister : Obligations.OffsetJumpAddsTheNamedRegister := by
  refine ⟨isRow_jpVxNNN, fun w => ?_, fun x nnn s => ?_⟩
  · rw [← Instr.jumpRegister_nnn, Instr.jumpRegister_val]
  · obtain ⟨t, ht, hpc, hframe⟩ :=
      exec_jumps (i := .jpVxNNN x nnn) (s := s) rfl (offsetTarget_toNat nnn (s.getV x))
    exact ⟨t, ht, hpc, nextFetchChecks t, hframe⟩

/-! ## CALL and RET (R121, R122) -/

/-- The return address of an instruction at `s.pc` is pushed at depth `k`. -/
def State.pushed (s : State) (k : Fin 16) : State := { s with stack := s.stack.set k.val (s.pc + 2), sp := k.succ }

/-- The entry at depth `k` is popped into `pc`; it stays on the stack. -/
def State.popped (s : State) (k : Fin 16) : State := { s with sp := k.castSucc, pc := s.stack[k.val] }

theorem State.pushed_stack_same (s : State) (k : Fin 16) : (s.pushed k).stack[k.val] = s.pc + 2 :=
  Vector.getElem_set_self k.isLt

theorem State.pushed_stack_other (s : State) {j k : Fin 16} (h : j ≠ k) :
    (s.pushed k).stack[j.val] = s.stack[j.val] :=
  Vector.getElem_set_ne k.isLt j.isLt (Fin.val_ne_of_ne h.symm)

theorem keptBut_pushed (s : State) (k : Fin 16) : KeptBut [.stack, .sp, .pc] s (s.pushed k) := fun p hp => by
  cases p with
  | stack | sp => simp at hp
  | _ => exact KeptBut.refl _ s _ hp

theorem keptBut_popped (s : State) (k : Fin 16) : KeptBut [.sp, .pc] s (s.popped k) := fun p hp => by
  cases p with
  | sp | pc => simp at hp
  | _ => exact KeptBut.refl _ s _ hp

/-- CALL with room on the stack pushes, then jumps. -/
theorem exec_callNNN_of_room {s : State} {k : Fin 16} (h : s.sp.val = k.val) (nnn : Imm12) :
    exec (.callNNN nnn) s = .next ((s.pushed k).jump (zextAddr nnn)) := by
  have hpush : pushReturn s = .ok (s.pushed k) := by
    rw [pushReturn_ok (by omega)]
    simp only [State.pushed, h]
    rfl
  show finish s ((pushReturn s).map _) = _
  rw [hpush]
  rfl

theorem exec_callNNN_of_full {s : State} (h : s.sp.val = 16) (nnn : Imm12) :
    exec (.callNNN nnn) s = .next (s.latch (.stackOverflow s.pc)) :=
  finish_map_error (pushReturn_error h) _

/-- RET with an entry on the stack pops it. -/
theorem exec_ret_of_nonempty {s : State} {k : Fin 16} (h : s.sp.val = k.val + 1) : exec .ret s = .next (s.popped k) := by
  have hpop : popReturn s = .ok (s.popped k) := by
    rw [popReturn_ok (by omega)]
    simp only [State.popped, h, Nat.add_sub_cancel]
    rfl
  show finish s (popReturn s) = _
  rw [hpop]
  rfl

theorem exec_ret_of_empty {s : State} (h : s.sp.val = 0) : exec .ret s = .next (s.latch (.stackUnderflow s.pc)) := by
  show finish s (popReturn s) = _
  rw [popReturn_error h]
  rfl

/-- Settles O28: the entry at the old depth is the one written; on a full stack the fault is taken. -/
theorem callPushesTheReturnAddress : Obligations.CallPushesTheReturnAddress := by
  refine ⟨isRow_formatA 0x2 fun _ => ⟨rfl, rfl⟩, fun nnn s => ⟨fun k hk => ?_, fun hfull => ?_⟩⟩
  · exact ⟨_, exec_callNNN_of_room hk nnn, s.pushed_stack_same k, fun j hj => s.pushed_stack_other hj, rfl,
      zextAddr_toNat nnn, (keptBut_pushed s k).jump (by simp) _⟩
  · exact takesFault_of_exec_latch (exec_callNNN_of_full hfull nnn)

/-- Settles O29: the newest entry goes to `pc`; on an empty stack the fault is taken. -/
theorem returnPopsTheNewestEntry : Obligations.ReturnPopsTheNewestEntry := fun s =>
  ⟨fun k hk => ⟨_, exec_ret_of_nonempty hk, rfl, rfl, keptBut_popped s k⟩,
    fun hempty => takesFault_of_exec_latch (exec_ret_of_empty hempty)⟩

/-- Settles O30: RET pops at the depth where CALL pushed. -/
theorem returnComesBackAfterTheCall : Obligations.ReturnComesBackAfterTheCall := by
  intro nnn s t u hroom ht hstack hsp
  obtain ⟨k, hk⟩ : ∃ k : Fin 16, s.sp.val = k.val := ⟨⟨s.sp.val, hroom⟩, rfl⟩
  rw [exec_callNNN_of_room hk nnn] at ht
  cases ht
  have hstack' : u.stack = (s.pushed k).stack := hstack
  have hdepth : u.sp.val = k.val + 1 := congrArg Fin.val hsp
  refine ⟨u.popped k, exec_ret_of_nonempty hdepth, ?_, Fin.ext hk.symm, fun j hj => ?_⟩
  · show u.stack[k.val] = _
    rw [hstack', s.pushed_stack_same]
  · show u.stack[j.val] = _
    rw [hstack', s.pushed_stack_other (Fin.ne_of_lt (hj.trans_eq hk))]

/-! ## The skips (R125 to R128) -/

/-- A skip goes on by 4 where its condition holds and by 2 where it does not, whatever the condition is. -/
theorem exec_skips {i : Instr} {s : State} {c : Bool} {p q : Prop} (h : exec i s = .next (s.skipIf c))
    (hp : p → c = true) (hq : q → c = false) :
    ∃ t, exec i s = .next t ∧ (p → t.pc = s.pc + 4) ∧ (q → t.pc = s.pc + 2) ∧ NextFetchChecks t ∧
      KeptBut [.pc] s t := by
  refine ⟨_, h, fun h4 => ?_, fun h2 => ?_, nextFetchChecks _, (KeptBut.refl _ s).jump (by simp) _⟩
  · rw [hp h4]
    rfl
  · rw [hq h2]
    rfl

/-- Settles O31: the rows are of format XB, and each instruction skips on its comparison. -/
theorem immediateSkipsAdvanceByFourOrTwo : Obligations.ImmediateSkipsAdvanceByFourOrTwo :=
  ⟨isRow_formatXB 0x3 fun _ => ⟨rfl, rfl⟩, isRow_formatXB 0x4 fun _ => ⟨rfl, rfl⟩, fun _ _ _ =>
    ⟨exec_skips rfl beq_iff_eq.mpr beq_eq_false_iff_ne.mpr, exec_skips rfl bne_iff_ne.mpr bne_eq_false_iff_eq.mpr⟩⟩

/-- The words of families 5 and 9 with another low nibble are illegal (R75). -/
theorem decode_error_of_family_5_or_9 {w : Word} (hn : w.toNat % 16 ≠ 0)
    (hop : w.toNat / 4096 = 5 ∨ w.toNat / 4096 = 9) : ∃ e, decode w = .error e := by
  obtain ⟨_, h5, _, h9, _⟩ := illegalWordsAreTheListedOnes w
  exact hop.elim (fun hop => ⟨_, h5.mpr ⟨hop, hn⟩⟩) fun hop => ⟨_, h9.mpr ⟨hop, hn⟩⟩

/-- Settles O32: the rows are of format XY, and each instruction skips on its comparison. -/
theorem registerSkipsAdvanceByFourOrTwo : Obligations.RegisterSkipsAdvanceByFourOrTwo :=
  ⟨isRow_formatXY 0x5 0x0 fun _ => ⟨rfl, rfl⟩, isRow_formatXY 0x9 0x0 fun _ => ⟨rfl, rfl⟩,
    fun _ => decode_error_of_family_5_or_9, fun _ _ _ =>
    ⟨exec_skips rfl beq_iff_eq.mpr beq_eq_false_iff_ne.mpr, exec_skips rfl bne_iff_ne.mpr bne_eq_false_iff_eq.mpr⟩⟩

/-! ## Where `pc` goes (R120) -/

theorem skipIf_pc_cases (s : State) (c : Bool) : (s.skipIf c).pc = s.pc + 2 ∨ (s.skipIf c).pc = s.pc + 4 := by
  cases c with
  | false => exact .inl rfl
  | true => exact .inr rfl

/-- An instruction that ends without a fault went on from what it read or wrote. -/
theorem ok_of_finish {s t : State} {r : Except Fault State} (h : finish s r = .next t) (ht : t.fault = .noFault) :
    r = .ok t := by
  obtain h | ⟨f, _, rfl⟩ := finish_cases h
  · exact h
  · exact absurd ht (latch_fault_ne_noFault s f)

theorem ok_of_finish_map {α : Type} {s t : State} {r : Except Fault α} {g : α → State}
    (h : finish s (r.map g) = .next t) (ht : t.fault = .noFault) : ∃ a, r = .ok a ∧ t = g a := by
  obtain h | ⟨f, _, rfl⟩ := finish_map_cases h
  · exact h
  · exact absurd ht (latch_fault_ne_noFault s f)

/-- Settles O33: the transfers and the skips by themselves; every other instruction ends with `State.advance`, but for
LD Vx,K while it waits. -/
theorem pcMovesOnlyAsListed : Obligations.PcMovesOnlyAsListed := by
  intro i s t _ h ht
  cases i with
  | ret =>
    obtain ⟨hpos, rfl⟩ := popReturn_cases (ok_of_finish h ht)
    exact .inr (.inr (.inr (.inr (.inl ⟨rfl, ⟨s.sp.val - 1, by omega⟩, (Nat.sub_add_cancel hpos).symm, rfl⟩))))
  | jpNNN nnn => cases h; exact .inr (.inr (.inl ⟨nnn, .inl rfl, zextAddr_toNat nnn⟩))
  | callNNN nnn =>
    obtain ⟨u, _, rfl⟩ := ok_of_finish_map h ht
    exact .inr (.inr (.inl ⟨nnn, .inr rfl, zextAddr_toNat nnn⟩))
  | jpVxNNN x nnn => cases h; exact .inr (.inr (.inr (.inl ⟨x, nnn, rfl, offsetTarget_toNat nnn _⟩)))
  | seVxNN x nn | sneVxNN x nn | seVxVy x y | sneVxVy x y =>
    cases h
    exact (skipIf_pc_cases s _).imp (fun hpc => ⟨hpc, by simp⟩) fun hpc => .inl ⟨hpc, by simp⟩
  | skpVx x | sknpVx x =>
    obtain ⟨down, _, rfl⟩ := ok_of_finish_map h ht
    exact (skipIf_pc_cases s _).imp (fun hpc => ⟨hpc, by simp⟩) fun hpc => .inl ⟨hpc, by simp⟩
  | ldVxK x =>
    cases hk : lowestKey s.keys with
    | none =>
      rw [exec_ldVxK_of_none hk] at h
      cases h
      exact .inr (.inr (.inr (.inr (.inr ⟨x, rfl, lowestKey_none.mp hk, rfl⟩))))
    | some k =>
      rw [exec_ldVxK_of_some hk] at h
      cases h
      exact .inl ⟨rfl, by simp⟩
  | drwVxVyN x y n =>
    obtain ⟨bs, _, rfl⟩ := ok_of_finish_map h ht
    exact .inl ⟨rfl, by simp⟩
  | ldVI x =>
    obtain ⟨bs, _, rfl⟩ := ok_of_finish_map h ht
    exact .inl ⟨by rw [State.advance_pc, State.setAllV_pc], by simp⟩
  | ldBVx x | ldIV x =>
    obtain ⟨m, rfl, _⟩ | ⟨f, rfl, _⟩ := exec_store_cases ⟨x, by simp⟩ h
    · exact .inl ⟨rfl, by simp⟩
    · exact absurd ht (latch_fault_ne_noFault s f)
  | _ => cases h; exact .inl ⟨rfl, by simp⟩

end Sys2Proof.Machine
end

/-! SUPPORT. Proofs of the statements on the index register, the loads and the stores (spec/42_memory_index.md): the
instructions that set `I`, what a store of bytes at `I` leaves in memory, and what the block load leaves in the registers. -/

section

namespace Sys2Proof.Claims

open Sys2Proof.Machine

/-! ## Frames of the three updates of this family -/

section

variable {ps : List Part} {s t : State}

theorem KeptBut.setI (h : KeptBut ps s t) (hi : .i ∈ ps) (w : Word) : KeptBut ps s (t.setI w) := fun p hp => by
  cases p with
  | i => exact absurd hi hp
  | _ => exact h _ hp

theorem KeptBut.setMem (h : KeptBut ps s t) (hm : .mem ∈ ps) (m : Memory) : KeptBut ps s (t.setMem m) := fun p hp => by
  cases p with
  | mem => exact absurd hm hp
  | _ => exact h _ hp

theorem KeptBut.setAllV (h : KeptBut ps s t) (hv : .v ∈ ps) (bs : List Byte) : KeptBut ps s (t.setAllV bs) := fun p hp => by
  cases p with
  | v => exact absurd hv hp
  | _ => simpa [Part.kept] using h _ hp

end

end Sys2Proof.Claims

namespace Sys2Proof.Machine

open Sys2Proof.Claims

/-! ## The instructions that set `I` (R140, R142, R144) -/

/-- The glyph address of any byte fits 16 bits (decision D14). -/
theorem glyphAddr_toNat (b : Byte) : (glyphAddr b).toNat = 0x050 + 5 * b.toNat := by
  have hb : b.toNat < 256 := b.isLt
  exact Nat.mod_eq_of_lt (show 0x050 + 5 * b.toNat < 2 ^ 16 by omega)

theorem exec_writesIndex {i : Instr} {s : State} {w : Word} {n : Nat} (h : exec i s = .next (s.setI w).advance)
    (hw : w.toNat = n) :
    ∃ t, exec i s = .next t ∧ t.i.toNat = n ∧ t.pc = s.pc + 2 ∧ KeptBut [.i, .pc] s t :=
  ⟨_, h, hw, rfl, ((KeptBut.refl _ s).setI (by simp) w).advance (by simp)⟩

/-- Settles O34: each writes one word to `I`. -/
theorem indexInstructionsWriteI : Obligations.IndexInstructionsWriteI := by
  refine ⟨fun nnn s => exec_writesIndex rfl (zextAddr_toNat nnn), fun x s => exec_writesIndex rfl ?_,
    fun x s => exec_writesIndex rfl (glyphAddr_toNat _)⟩
  rw [BitVec.toNat_add, zextByte_toNat]

/-! ## The stores (R146, R150) -/

/-- A store of bytes at `I` that fits in memory leaves them there, first byte first, and keeps every other byte. -/
theorem exec_storesBytes {i : Instr} {s : State} {vs : List Byte}
    (h : exec i s = finish s ((writeBytes s s.base vs).map State.advance)) (hm : s.mem.wf)
    (hend : s.i.toNat + vs.length ≤ 4096) :
    ∃ t, exec i s = .next t ∧ (∀ k, k < vs.length → t.mem.read (s.i.toNat + k) = vs.getD k 0) ∧
      BytesKeptOutside s.i.toNat vs.length s t ∧ t.pc = s.pc + 2 ∧ KeptBut [.mem, .pc] s t := by
  have hread := Memory.read_writeAll hm.1 s.i.toNat vs
  rw [State.base, writeBytes_ok s hend] at h
  refine ⟨(s.setMem (s.mem.writeAll s.i.toNat vs)).advance, h, fun k hk => ?_, fun a ha => ?_, rfl, ?_⟩
  · rw [State.advance_mem, State.setMem_mem, hread, if_pos (by omega), Nat.add_sub_cancel_left]
  · rw [State.advance_mem, State.setMem_mem, hread, if_neg ha]
  · exact ((KeptBut.refl _ s).setMem (by simp) _).advance (by simp)

theorem digitByte_toNat {n : Nat} (h : n < 10) : (BitVec.ofNat 8 n).toNat = n :=
  Nat.mod_eq_of_lt (show n < 2 ^ 8 by omega)

/-- Settles O35: the store of the three digits. -/
theorem decimalDigitsAreStored : Obligations.DecimalDigitsAreStored := by
  refine ⟨isRow_formatXF 0xF 0x33 fun _ => ⟨rfl, rfl⟩, fun x s => ⟨fun hm hi => ?_, fun hi => ?_⟩⟩
  · obtain ⟨t, ht, hread, hframe⟩ :=
      exec_storesBytes (i := .ldBVx x) (vs := decimalDigits (s.getV x)) rfl hm (Nat.succ_le_succ hi)
    have hV : (s.getV x).toNat < 256 := (s.getV x).isLt
    have hdigit {k : Nat} (hk : k < 3) :
        (t.mem.read (s.i.toNat + k)).toNat = ((decimalDigits (s.getV x)).getD k 0).toNat :=
      congrArg BitVec.toNat (hread k hk)
    exact ⟨t, ht, (hdigit (k := 0) (by decide)).trans (digitByte_toNat (by omega)),
      (hdigit (k := 1) (by decide)).trans (digitByte_toNat (by omega)),
      (hdigit (k := 2) (by decide)).trans (digitByte_toNat (by omega)), hframe⟩
  · exact memoryInstructionsFaultWhole s (.ldBVx x) (Nat.succ_pos _) hi

/-- Settles O36: the store of the register file. -/
theorem blockStoreWritesAllRegisters : Obligations.BlockStoreWritesAllRegisters := by
  refine fun x s => ⟨fun hm hi => ?_, fun hi => ?_⟩
  · have hlen := v_toList_length s
    obtain ⟨t, ht, hread, hkept, hframe⟩ := exec_storesBytes (i := .ldIV x) (vs := s.v.toList) rfl hm (by omega)
    rw [hlen] at hkept
    refine ⟨t, ht, fun k => ?_, hkept, hframe⟩
    rw [hread k.val (by omega), State.v_toList_getD]
  · exact memoryInstructionsFaultWhole s (.ldIV x) (Nat.succ_pos _) hi

/-! ## The block load (R152, decision D25) -/

/-- The sixteen bytes from `I` on, which the block load reads. -/
def State.bytesAtI (s : State) : List Byte := (List.range 16).map fun k => s.mem.read (s.base + k)

theorem State.bytesAtI_getD (s : State) (k : Reg) : s.bytesAtI.getD k.val 0 = s.mem.read (s.base + k.val) := by
  simp [State.bytesAtI, List.getD_eq_getElem?_getD]

/-- Inside memory the block load reads the sixteen bytes and goes on, whatever its `X` is. -/
theorem exec_ldVI_inside {s : State} (h : s.base + 16 ≤ 4096) (x : Reg) :
    exec (.ldVI x) s = .next (s.setAllV s.bytesAtI).advance := by
  show finish s ((readBytes s s.base 16).map _) = _
  rw [readBytes_ok s (.inr h)]
  rfl

/-- Settles O37: each register is its byte of the sixteen. -/
theorem blockLoadReadsAllRegisters : Obligations.BlockLoadReadsAllRegisters := by
  refine fun x s => ⟨fun hi => ?_, fun hi => ?_⟩
  · refine ⟨_, exec_ldVI_inside (Nat.succ_le_succ hi) x, fun k => ?_, rfl, ?_⟩
    · rw [State.advance_getV, State.getV_setAllV, State.bytesAtI_getD]
      rfl
    · exact ((KeptBut.refl _ s).setAllV (by simp) _).advance (by simp)
  · exact memoryInstructionsFaultWhole s (.ldVI x) (Nat.succ_pos _) hi

/-- Settles O38: the load reads at `I + k` the byte that the store put there, which is `V[k]`. -/
theorem blockLoadRestoresBlockStore : Obligations.BlockLoadRestoresBlockStore := by
  intro x y s t u hm hi ht hmem hI
  obtain ⟨t', ht', hstored, -⟩ := (blockStoreWritesAllRegisters x s).1 hm hi
  obtain ⟨r, hr, hloaded, -⟩ := (blockLoadReadsAllRegisters y u).1 (hI ▸ hi)
  obtain rfl : t' = t := by cases ht'.symm.trans ht; rfl
  refine ⟨r, hr, fun k => ?_⟩
  rw [hloaded, hmem, hI, hstored]

end Sys2Proof.Machine
end

/-! SUPPORT. Proofs of the statements on the display (spec/43_display.md): what CLS and DRW leave in the pixels and in `VF`,
from the closed form of the drawing loop, and that toggling the same pixels twice restores them. -/

section

namespace Sys2Proof.Claims

open Sys2Proof.Machine

theorem KeptBut.setFB {ps : List Part} {s t : State} (h : KeptBut ps s t) (hf : .fb ∈ ps) (f : FrameBuffer) :
    KeptBut ps s (t.setFB f) := fun p hp => by
  cases p with
  | fb => exact absurd hf hp
  | _ => exact h _ hp

/-- Which pixels lie under a sprite depends on memory and `I` alone. -/
theorem SpriteOver.congr {s t : State} (hmem : ∀ a, t.mem.read a = s.mem.read a) (hi : t.i = s.i) {x0 y0 n : Nat}
    {q : Fin 32} {p : Fin 64} : SpriteOver t x0 y0 n q p ↔ SpriteOver s x0 y0 n q p := by
  rw [SpriteOver, SpriteOver, hmem, hi]

end Sys2Proof.Claims

namespace Sys2Proof.Machine

open Sys2Proof.Claims

/-! ## Toggling a set of pixels (R161, R163) -/

/-- From `f` to `g` exactly the pixels in `under` are toggled. -/
def FrameBuffer.Toggles (under : Fin 32 → Fin 64 → Prop) (f g : FrameBuffer) : Prop :=
  ∀ q p, (under q p → g.pixel q p = !f.pixel q p) ∧ (¬ under q p → g.pixel q p = f.pixel q p)

namespace FrameBuffer.Toggles

variable {under : Fin 32 → Fin 64 → Prop} {f g h : FrameBuffer}

/-- Toggling the same pixels again restores every pixel. -/
theorem pixel_of_twice (hfg : Toggles under f g) (hgh : Toggles under g h) (q : Fin 32) (p : Fin 64) :
    h.pixel q p = f.pixel q p := by
  by_cases ho : under q p
  · rw [(hgh q p).1 ho, (hfg q p).1 ho, Bool.not_not]
  · rw [(hgh q p).2 ho, (hfg q p).2 ho]

/-- The toggled pixels that are on afterwards are the ones that were turned on. -/
theorem on_and_under_iff (hfg : Toggles under f g) (q : Fin 32) (p : Fin 64) :
    g.pixel q p = true ∧ under q p ↔ f.pixel q p = false ∧ g.pixel q p = true := by
  by_cases ho : under q p
  · simp [(hfg q p).1 ho, ho]
  · simp [(hfg q p).2 ho, ho]

end FrameBuffer.Toggles

/-! ## The drawing (R161, R162) -/

/-- The bytes of a sprite of `n` rows, which DRW reads at `I`. -/
def State.spriteBytes (s : State) (n : Nat) : List Byte := (List.range n).map fun k => s.mem.read (s.base + k)

@[simp] theorem State.spriteBytes_length (s : State) (n : Nat) : (s.spriteBytes n).length = n := by
  simp [State.spriteBytes]

theorem State.spriteBytes_getD (s : State) {n r : Nat} (h : r < n) :
    (s.spriteBytes n).getD r 0 = s.mem.read (s.base + r) := by
  simp [State.spriteBytes, List.getD_eq_getElem?_getD, h]

/-- The closed form of the drawing loop covers the pixels under a 1 of the sprite. -/
theorem spriteCovers_spriteBytes (s : State) (x0 y0 n : Nat) (q : Fin 32) (p : Fin 64) :
    spriteCovers (s.spriteBytes n) x0 y0 q.val p.val = true ↔ SpriteOver s x0 y0 n q p := by
  rw [spriteCovers, State.spriteBytes_length, Bool.and_eq_true, decide_eq_true_iff, SpriteOver, ← and_assoc]
  refine and_congr_right fun hq => ?_
  rw [State.spriteBytes_getD s (by omega), rowCovers, Bool.and_eq_true, decide_eq_true_iff, and_assoc]
  rfl

/-- The pixels under a 1 of the sprite that DRW Vx,Vy,N draws in `s`. -/
def State.underSprite (s : State) (x y : Reg) (n : RowCount) : Fin 32 → Fin 64 → Prop :=
  SpriteOver s ((s.getV x).toNat % 64) ((s.getV y).toNat % 32) n.val

/-- What DRW Vx,Vy,N draws in `s`: the pixels afterwards, and whether there was a collision. -/
def State.drawn (s : State) (x y : Reg) (n : RowCount) : Canvas :=
  Canvas.drawRows (startColumn (s.getV x)) (startRow (s.getV y)) (s.spriteBytes n.val) { fb := s.fb, hit := false }

theorem State.drawn_toggles (s : State) (x y : Reg) (n : RowCount) :
    FrameBuffer.Toggles (s.underSprite x y n) s.fb (s.drawn x y n).fb := by
  intro q p
  have hpixel := (Canvas.drawRows_spec (startColumn (s.getV x)) (s.spriteBytes n.val) (startRow (s.getV y))
    { fb := s.fb, hit := false }).1 q p
  have hcovers := spriteCovers_spriteBytes s (startColumn (s.getV x)) (startRow (s.getV y)) n.val q p
  constructor
  · intro hunder
    rw [State.drawn, hpixel, hcovers.mpr hunder, Bool.xor_true]
  · intro hunder
    rw [State.drawn, hpixel, Bool.eq_false_iff.mpr (mt hcovers.mp hunder), Bool.xor_false]

/-- A collision is a pixel under the sprite that was on. -/
theorem State.drawn_hit_iff (s : State) (x y : Reg) (n : RowCount) :
    (s.drawn x y n).hit = true ↔ ∃ q p, s.fb.pixel q p = true ∧ s.underSprite x y n q p := by
  rw [State.drawn, (Canvas.drawRows_spec _ _ _ _).2]
  simp only [spriteCovers_spriteBytes, Bool.false_eq_true, false_or]
  rfl

/-- Where the sprite's bytes lie in memory, DRW draws and goes on. -/
theorem exec_drwVxVyN_inside {s : State} {n : RowCount} (h : n.val = 0 ∨ s.base + n.val ≤ 4096) (x y : Reg) :
    exec (.drwVxVyN x y n) s =
      .next ((s.setFB (s.drawn x y n).fb).setFlag (s.drawn x y n).hit).advance := by
  show finish s ((readBytes s s.base n.val).map _) = _
  rw [readBytes_ok s h]
  rfl

/-- A DRW that takes no fault found the sprite's bytes in memory (decision D10). -/
theorem spriteFits_of_exec_drwVxVyN {x y : Reg} {n : RowCount} {s t : State}
    (h : exec (.drwVxVyN x y n) s = .next t) (ht : t.fault = .noFault) :
    n.val = 0 ∨ s.i.toNat + n.val - 1 ≤ 4095 := by
  obtain ⟨_, hread, -⟩ := ok_of_finish_map h ht
  obtain ⟨hfits, -⟩ := readBytes_cases hread
  exact hfits.imp_right fun hend => Nat.sub_le_of_le_add hend

/-! ## The statements -/

/-- Settles O41: the canvas `State.drawn` toggles the pixels under the sprite, and its collision is the last write to
`VF`; past the end of memory DRW faults as every memory instruction does. -/
theorem drawTogglesTheSpritePixels : Obligations.DrawTogglesTheSpritePixels := by
  refine fun x y n s => ⟨fun hfits => ?_, memoryInstructionsFaultWhole s (.drwVxVyN x y n)⟩
  refine ⟨_, exec_drwVxVyN_inside (hfits.imp_right Nat.le_add_of_sub_le) x y, s.drawn_toggles x y n, fun hon => ?_,
    fun hoff => ?_, ?_, rfl, ?_⟩
  · rw [State.advance_getV, State.getV_setFlag_VF, (s.drawn_hit_iff x y n).mpr hon]
    rfl
  · rw [State.advance_getV, State.getV_setFlag_VF, Bool.eq_false_iff.mpr (mt (s.drawn_hit_iff x y n).mp hoff)]
    rfl
  · exact (RegsKeptBut.refl [VF] (s.setFB _)).setFlag (by simp) _
  · exact (((KeptBut.refl _ s).setFB (by simp) _).setV (by simp) VF _).advance (by simp)

/-- Settles O42: the first draw keeps `V[X]`, `V[Y]`, `I` and memory, so that both toggle the same pixels; the second
collides with the pixels that the first turned on. -/
theorem drawingTwiceRestoresTheScreen : Obligations.DrawingTwiceRestoresTheScreen := by
  intro x y n s t hx hy _ ht hfault
  have hfits := spriteFits_of_exec_drwVxVyN ht hfault
  obtain ⟨t', ht', hfirst, -, -, hregs, -, hkept⟩ := (drawTogglesTheSpritePixels x y n s).1 hfits
  obtain rfl : t' = t := by cases ht'.symm.trans ht; rfl
  have hi : t'.i = s.i := hkept .i (by simp)
  obtain ⟨u, hu, hsecond, hon, hoff, -⟩ := (drawTogglesTheSpritePixels x y n t').1 (hi ▸ hfits)
  have hunder : t'.underSprite x y n = s.underSprite x y n := by
    funext q p
    rw [State.underSprite, hregs x (by simpa using hx), hregs y (by simpa using hy)]
    exact propext (SpriteOver.congr (hkept .mem (by simp)) hi)
  have hsame : FrameBuffer.Toggles (s.underSprite x y n) t'.fb u.fb := hunder ▸ hsecond
  have hcollide : (∃ q p, t'.fb.pixel q p = true ∧ t'.underSprite x y n q p) ↔
      ∃ q p, s.fb.pixel q p = false ∧ t'.fb.pixel q p = true := by
    rw [hunder]
    exact exists₂_congr (FrameBuffer.Toggles.on_and_under_iff hfirst)
  refine ⟨u, hu, FrameBuffer.Toggles.pixel_of_twice hfirst hsame, ?_⟩
  rw [← hcollide]
  by_cases hc : ∃ q p, t'.fb.pixel q p = true ∧ t'.underSprite x y n q p
  · exact ⟨iff_of_true (hon hc) hc, .inr (hon hc)⟩
  · have h0 := hoff hc
    exact ⟨iff_of_false (by omega) hc, .inl h0⟩

/-- Settles O40: the cleared framebuffer has every pixel off. -/
theorem clearTurnsEveryPixelOff : Obligations.ClearTurnsEveryPixelOff := fun s =>
  ⟨_, rfl, FrameBuffer.pixel_clear, rfl, ((KeptBut.refl _ s).setFB (by simp) _).advance (by simp)⟩

end Sys2Proof.Machine
end

/-! SUPPORT. Proofs of the statements on the timers and the keypad (spec/44_timers_keypad.md): the two timer writes, the
skips on a key, and which key the wait for a key stores. -/

section

namespace Sys2Proof.Claims

open Sys2Proof.Machine

/-! ## Frames of the two timer writes -/

section

variable {ps : List Part} {s t : State}

theorem KeptBut.setDT (h : KeptBut ps s t) (hd : .dt ∈ ps) (b : Byte) : KeptBut ps s (t.setDT b) := fun p hp => by
  cases p with
  | dt => exact absurd hd hp
  | _ => exact h _ hp

theorem KeptBut.setST (h : KeptBut ps s t) (hst : .st ∈ ps) (b : Byte) : KeptBut ps s (t.setST b) := fun p hp => by
  cases p with
  | st => exact absurd hst hp
  | _ => exact h _ hp

end

end Sys2Proof.Claims

namespace Sys2Proof.Machine

open Sys2Proof.Claims

/-! ## The skips on a key (R173, R174) -/

theorem readKey_of_key {s : State} {b : Byte} {k : Key} (h : b.toNat = k.val) : readKey s b = .ok s.keys[k.val] := by
  rw [readKey_ok (h ▸ k.isLt)]
  simp only [h]

section

variable {i : Instr} {s : State} {x : Reg} {skips : Bool → Bool}

/-- Where `V[X]` is a key, a skip on it goes on by 4 if the key's latch is such that it skips, by 2 otherwise. -/
theorem exec_skipsOnKey (hi : exec i s = finish s ((readKey s (s.getV x)).map fun down => s.skipIf (skips down)))
    {k : Key} (hk : (s.getV x).toNat = k.val) {pressed : Bool} (hp : skips pressed = true)
    (hn : skips (!pressed) = false) :
    ∃ t, exec i s = .next t ∧ (s.keys[k.val] = pressed → t.pc = s.pc + 4) ∧
      (s.keys[k.val] = (!pressed) → t.pc = s.pc + 2) ∧ KeptBut [.pc] s t := by
  have hskip : exec i s = .next (s.skipIf (skips s.keys[k.val])) := by
    rw [hi, readKey_of_key hk]
    rfl
  obtain ⟨t, ht, h4, h2, -, hkept⟩ := exec_skips hskip (p := s.keys[k.val] = pressed) (q := s.keys[k.val] = !pressed)
    (fun h => by rw [h, hp]) (fun h => by rw [h, hn])
  exact ⟨t, ht, h4, h2, hkept⟩

/-- Where `V[X]` is above 15, a skip on it takes the fault of that index (R205, decision D13). -/
theorem takesFault_of_noKey (hi : exec i s = finish s ((readKey s (s.getV x)).map fun down => s.skipIf (skips down)))
    (hx : (s.getV x).toNat > 15) : TakesFault i s .keyIndexError (s.getV x).toNat := by
  have hfault := takesFault_of_exec_latch (hi.trans (finish_map_error (readKey_error hx) _))
  rwa [show (Fault.keyIndexError (s.getV x)).info.toNat = _ from zextByte_toNat _] at hfault

end

/-- Settles O44: SKP skips on the latch, SKNP on its negation, and both read it first. -/
theorem keySkipsTestTheLatch : Obligations.KeySkipsTestTheLatch := fun _ _ =>
  ⟨fun _ hk => ⟨exec_skipsOnKey (skips := id) (pressed := true) rfl hk rfl rfl,
      exec_skipsOnKey (skips := not) (pressed := false) rfl hk rfl rfl⟩,
    fun hx => ⟨takesFault_of_noKey (skips := id) rfl hx, takesFault_of_noKey (skips := not) rfl hx⟩⟩

/-! ## The wait for a key (R175) -/

/-- The lowest pressed key is the one that is pressed with none pressed below it (decision D15). -/
theorem lowestKey_eq_some_iff {keys : Vector Bool 16} {k : Key} :
    lowestKey keys = some k ↔ keys[k.val] = true ∧ ∀ j : Key, j < k → keys[j.val] = false := by
  refine ⟨lowestKey_some, fun ⟨hk, hbelow⟩ => ?_⟩
  cases hl : lowestKey keys with
  | none => exact absurd hk (by simp [lowestKey_none.mp hl k])
  | some j =>
    obtain ⟨hj, hbelow'⟩ := lowestKey_some hl
    obtain hlt | rfl | hgt := lt_trichotomy j k
    · exact absurd hj (by simp [hbelow j hlt])
    · rfl
    · exact absurd hk (by simp [hbelow' k hgt])

theorem keyByte_toNat (k : Key) : (BitVec.ofNat 8 k.val).toNat = k.val := by
  rw [BitVec.toNat_ofNat]
  omega

/-- Settles O45: the lowest pressed key goes to the one register written; without one the state stays. -/
theorem waitForKeyStoresTheLowestKey : Obligations.WaitForKeyStoresTheLowestKey := by
  refine fun x s => ⟨fun k hk hbelow => ?_, fun hnone => exec_ldVxK_of_none (lowestKey_none.mpr hnone) x⟩
  obtain ⟨t, ht, hx, hframe⟩ :=
    exec_writesOneRegister (exec_ldVxK_of_some (lowestKey_eq_some_iff.mpr ⟨hk, hbelow⟩) x)
  exact ⟨t, ht, by rw [hx, keyByte_toNat], hframe⟩

/-! ## The timer instructions (R170 to R172) -/

/-- Settles O43: one write of a register or of a timer, then the advance. -/
theorem timerInstructionsMoveOneByte : Obligations.TimerInstructionsMoveOneByte := fun _ s =>
  ⟨exec_writesOneRegister rfl,
    ⟨_, rfl, rfl, rfl, ((KeptBut.refl _ s).setDT (by simp) _).advance (by simp)⟩,
    ⟨_, rfl, rfl, rfl, ((KeptBut.refl _ s).setST (by simp) _).advance (by simp)⟩⟩

end Sys2Proof.Machine
end

/-! SUPPORT. Proofs of the statements on faults, halting and the other agents (spec/60_exceptions.md): what raises each
fault, that a halted core answers every action but Reset with itself, that every action is answered by a next state, and
what Tick, KeyEvent, Snapshot and Stop do to a running core. -/

section

namespace Sys2Proof.Claims

open Sys2Proof.Machine

/-! ## Frames of the key event and the stop -/

theorem KeptBut.setKey {ps : List Part} {s t : State} (h : KeptBut ps s t) (hk : .keys ∈ ps) (k : Key) (b : Bool) :
    KeptBut ps s (t.setKey k b) := fun p hp => by
  cases p with
  | keys => exact absurd hk hp
  | _ => exact h _ hp

theorem keptBut_stopped (s : State) (b : Bool) : KeptBut [.stopped] s { s with stopped := b } := fun p hp => by
  cases p with
  | stopped => simp at hp
  | _ => exact KeptBut.refl _ s _ hp

end Sys2Proof.Claims

namespace Sys2Proof.Machine

open Sys2Proof.Claims

/-! ## The checked operations, backwards from a fault (R202 to R205) -/

theorem readBytes_error_cases {s : State} {base n : Nat} {f : Fault} (h : readBytes s base n = .error f) :
    (0 < n ∧ 4096 < base + n) ∧ f = .outOfBoundsAccess (max base 4096) := by
  by_cases hb : n = 0 ∨ base + n ≤ 4096
  · rw [readBytes_ok s hb] at h
    cases h
  · rw [readBytes_error s (by omega) (by omega)] at h
    cases h
    exact ⟨by omega, rfl⟩

theorem writeBytes_error_cases {s : State} {base : Nat} {vs : List Byte} {f : Fault} (hn : vs ≠ [])
    (h : writeBytes s base vs = .error f) : 4096 < base + vs.length ∧ f = .outOfBoundsAccess (max base 4096) := by
  by_cases hb : base + vs.length ≤ 4096
  · rw [writeBytes_ok s hb] at h
    cases h
  · rw [writeBytes_error s hn (by omega)] at h
    cases h
    exact ⟨by omega, rfl⟩

theorem pushReturn_error_cases {s : State} {f : Fault} (h : pushReturn s = .error f) :
    s.sp.val = 16 ∧ f = .stackOverflow s.pc := by
  by_cases hs : s.sp.val < 16
  · rw [pushReturn_ok hs] at h
    cases h
  · have hfull : s.sp.val = 16 := by omega
    rw [pushReturn_error hfull] at h
    cases h
    exact ⟨hfull, rfl⟩

theorem popReturn_error_cases {s : State} {f : Fault} (h : popReturn s = .error f) :
    s.sp.val = 0 ∧ f = .stackUnderflow s.pc := by
  by_cases hs : 0 < s.sp.val
  · rw [popReturn_ok hs] at h
    cases h
  · have hempty : s.sp.val = 0 := by omega
    rw [popReturn_error hempty] at h
    cases h
    exact ⟨hempty, rfl⟩

theorem readKey_error_cases {s : State} {b : Byte} {f : Fault} (h : readKey s b = .error f) :
    15 < b.toNat ∧ f = .keyIndexError b := by
  by_cases hb : b.toNat < 16
  · rw [readKey_ok hb] at h
    cases h
  · rw [readKey_error (by omega)] at h
    cases h
    exact ⟨by omega, rfl⟩

theorem fetch_error_cases {s : State} {f : Fault} (h : fetch s = .error f) :
    4094 < s.pc.toNat ∧ f = .outOfBoundsAccess (max s.pc.toNat 4096) := by
  by_cases hpc : s.pc.toNat < 4095
  · rw [fetch_ok hpc] at h
    cases h
  · rw [fetch_error (by omega)] at h
    cases h
    exact ⟨by omega, rfl⟩

/-! ## What raises each fault (R200, R207) -/

/-- The one check of each instruction that has one, and the fault it raises (R207 (3)). -/
inductive ExecRaises (s : State) : Instr → Fault → Prop
  | fullStack (nnn : Imm12) (h : s.sp.val = 16) : ExecRaises s (.callNNN nnn) (.stackOverflow s.pc)
  | emptyStack (h : s.sp.val = 0) : ExecRaises s .ret (.stackUnderflow s.pc)
  | pastTheEnd {i : Instr} (hn : 0 < dataBytes i) (h : 4096 < s.base + dataBytes i) :
      ExecRaises s i (.outOfBoundsAccess (max s.base 4096))
  | noKey {i : Instr} (x : Reg) (hi : i = .skpVx x ∨ i = .sknpVx x) (h : 15 < (s.getV x).toNat) :
      ExecRaises s i (.keyIndexError (s.getV x))

/-- The checks of a step: the fetch bound, the decoding, then the instruction's own (R207). -/
inductive StepRaises (s : State) : Fault → Prop
  | fetchBound (h : 4094 < s.pc.toNat) : StepRaises s (.outOfBoundsAccess (max s.pc.toNat 4096))
  | illegalWord {ir : Word} {e : Illegal} (hf : fetch s = .ok ir) (hd : decode ir = .error e) :
      StepRaises s (.decodeError ir)
  | instruction {ir : Word} {i : Instr} {f : Fault} (hf : fetch s = .ok ir) (hd : decode ir = .ok i)
      (h : ExecRaises s i f) : StepRaises s f

/-- Where the latch changed, the access of an instruction failed, provided that going on would leave the latch alone. -/
theorem error_of_finish_map {α : Type} {s t : State} {r : Except Fault α} {g : α → State}
    (h : finish s (r.map g) = .next t) (hg : ∀ a, r = .ok a → (g a).fault = s.fault) (ht : t.fault ≠ s.fault) :
    ∃ f, r = .error f ∧ t = s.latch f := by
  obtain ⟨a, ha, rfl⟩ | hf := finish_map_cases h
  · exact absurd (hg a ha) ht
  · exact hf

/-- The two stores have one check, whatever the bytes they store (R146, R150). -/
theorem raises_of_store {i : Instr} {s t : State} {vs : List Byte} (hn : vs ≠ []) (hlen : vs.length = dataBytes i)
    (h : finish s ((writeBytes s s.base vs).map State.advance) = .next t) (ht : t.fault ≠ s.fault) :
    ∃ f, ExecRaises s i f ∧ t = s.latch f := by
  have hg : ∀ u, writeBytes s s.base vs = .ok u → u.advance.fault = s.fault := fun u hu => by
    obtain ⟨_, rfl⟩ := writeBytes_cases hn hu
    rfl
  obtain ⟨f, hf, rfl⟩ := error_of_finish_map h hg ht
  obtain ⟨hend, rfl⟩ := writeBytes_error_cases hn hf
  exact ⟨_, .pastTheEnd (hlen ▸ List.length_pos_iff.mpr hn) (hlen ▸ hend), rfl⟩

/-- An instruction that changes `FAULT` latched the fault of its one check, in the state before it (R207, R208). -/
theorem exec_raises {i : Instr} {s t : State} (h : exec i s = .next t) (ht : t.fault ≠ s.fault) :
    ∃ f, ExecRaises s i f ∧ t = s.latch f := by
  cases i with
  | ret =>
    obtain h | ⟨f, hf, rfl⟩ := finish_cases h
    · obtain ⟨_, rfl⟩ := popReturn_cases h
      exact absurd rfl ht
    · obtain ⟨hempty, rfl⟩ := popReturn_error_cases hf
      exact ⟨_, .emptyStack hempty, rfl⟩
  | callNNN nnn =>
    have hg : ∀ u, pushReturn s = .ok u → (u.jump (zextAddr nnn)).fault = s.fault := fun u hu => by
      obtain ⟨_, rfl⟩ := pushReturn_cases hu
      rfl
    obtain ⟨f, hf, rfl⟩ := error_of_finish_map h hg ht
    obtain ⟨hfull, rfl⟩ := pushReturn_error_cases hf
    exact ⟨_, .fullStack nnn hfull, rfl⟩
  | skpVx x | sknpVx x =>
    obtain ⟨f, hf, rfl⟩ := error_of_finish_map h (fun _ _ => rfl) ht
    obtain ⟨hx, rfl⟩ := readKey_error_cases hf
    exact ⟨_, .noKey x (by simp) hx, rfl⟩
  | drwVxVyN x y n =>
    obtain ⟨f, hf, rfl⟩ := error_of_finish_map h (fun _ _ => rfl) ht
    obtain ⟨⟨hn, hend⟩, rfl⟩ := readBytes_error_cases hf
    exact ⟨_, .pastTheEnd hn hend, rfl⟩
  | ldVI x =>
    obtain ⟨f, hf, rfl⟩ := error_of_finish_map h (fun bs _ => by rw [State.advance_fault, State.setAllV_fault]) ht
    obtain ⟨⟨hn, hend⟩, rfl⟩ := readBytes_error_cases hf
    exact ⟨_, .pastTheEnd hn hend, rfl⟩
  | ldBVx x => exact raises_of_store (decimalDigits_ne_nil _) rfl h ht
  | ldIV x => exact raises_of_store (v_toList_ne_nil s) (v_toList_length s) h ht
  | ldVxK x =>
    obtain rfl | ⟨b, rfl⟩ := exec_ldVxK_cases h
    · exact absurd rfl ht
    · exact absurd rfl ht
  | _ => cases h; exact absurd rfl ht

/-- A step of a running core that ends in a fault latched the fault of the check that failed (R207, R208). -/
theorem cpuStep_raises {s t : State} (hs : s.halted = false) (h : cpuStep s = .next t) (ht : t.fault ≠ .noFault) :
    ∃ f, StepRaises s f ∧ t = s.latch f := by
  obtain ⟨hh, _⟩ | ⟨_, f, hf, rfl⟩ | ⟨_, ir, e, hf, hd, rfl⟩ | ⟨_, ir, i, hf, hd, h⟩ := cpuStep_cases h
  · exact absurd hh (by simp [hs])
  · obtain ⟨hpc, rfl⟩ := fetch_error_cases hf
    exact ⟨_, .fetchBound hpc, rfl⟩
  · exact ⟨_, .illegalWord hf hd, rfl⟩
  · rw [← (State.running_iff.mp hs).1] at ht
    obtain ⟨f, hr, rfl⟩ := exec_raises h ht
    exact ⟨f, .instruction hf hd hr, rfl⟩

/-- The lowest offending address of a range from a 16-bit base is recorded as it is (R203). -/
theorem lowestOffender_info_toNat (base : Word) :
    (Fault.outOfBoundsAccess (max base.toNat 4096)).info.toNat = max base.toNat 4096 :=
  outOfBoundsAccess_info_toNat (max_lt base.isLt (by decide))

/-- Settles O14: case by case of the check that failed, whose fault one of the five clauses speaks of. -/
theorem faultsAreTheListedOnes : Obligations.FaultsAreTheListedOnes := by
  intro s t hs h ht
  obtain ⟨f, hf, rfl⟩ := cpuStep_raises hs h ht
  refine ⟨keptBut_latch s f, ?_⟩
  cases hf with
  | fetchBound hpc =>
    exact ⟨nofun, nofun, fun _ => ⟨rfl, .inl ⟨hpc, lowestOffender_info_toNat s.pc⟩⟩, nofun, nofun⟩
  | illegalWord hf hd => exact ⟨fun _ => ⟨rfl, hf, _, hd⟩, nofun, nofun, nofun, nofun⟩
  | @instruction ir i _ hf hd hr =>
    cases hr with
    | fullStack nnn hfull => exact ⟨nofun, fun _ => ⟨rfl, rfl, hfull, _, nnn, hf, hd⟩, nofun, nofun, nofun⟩
    | emptyStack hempty => exact ⟨nofun, nofun, nofun, fun _ => ⟨rfl, rfl, hempty, _, hf, hd⟩, nofun⟩
    | pastTheEnd hn hend =>
      exact ⟨nofun, nofun, fun _ => ⟨rfl, .inr ⟨ir, i, hf, hd, hn, Nat.le_sub_of_add_le hend,
        lowestOffender_info_toNat s.i⟩⟩, nofun, nofun⟩
    | noKey x hi hx =>
      have hkey : decode ir = .ok (.skpVx x) ∨ decode ir = .ok (.sknpVx x) := by
        rcases hi with rfl | rfl
        · exact .inl hd
        · exact .inr hd
      exact ⟨nofun, nofun, nofun, nofun, fun _ => ⟨rfl, ir, x, hf, hkey, hx, zextByte_toNat _⟩⟩

/-- The word 0x0000 is no instruction (R75 (a)). -/
theorem decode_zero : decode 0x0000 = .error .family0 := rfl

/-- Nothing is loaded after reset: the first fetch gives 0x0000 (R35). -/
theorem fetch_reset : fetch State.reset = .ok 0x0000 := rfl

/-- A running core that fetches 0x0000 takes DecodeError of it. -/
theorem cpuStep_zero {s : State} (hs : s.halted = false) (hf : fetch s = .ok 0x0000) :
    ∃ t, cpuStep s = .next t ∧ t.fault = .decodeError ∧ t.faultInfo.toNat = 0 :=
  ⟨_, cpuStep_decode_error hs hf decode_zero, rfl, rfl⟩

/-- Settles O12: the fault of the decoding is latched; 0x0000 does not decode and is what the reset state fetches. -/
theorem illegalWordRaisesDecodeError : Obligations.IllegalWordRaisesDecodeError :=
  ⟨fun s _ _ hs hf hd => ⟨_, cpuStep_decode_error hs hf hd, rfl, rfl, keptBut_latch s _⟩,
    fun _ => cpuStep_zero, cpuStep_zero rfl fetch_reset⟩

/-! ## The agents other than the CPU, running and halted (R210, R212, R214, R220) -/

section

variable {s : State}

theorem State.tick_halted (h : s.halted = true) : s.tick = s := if_pos h

theorem State.tick_running (h : s.halted = false) : s.tick = (s.setDT (countDown s.dt)).setST (countDown s.st) :=
  if_neg (by simp [h])

theorem State.tickTone_halted (h : s.halted = true) : s.tickTone = none := if_pos h

theorem State.tickTone_running (h : s.halted = false) : s.tickTone = some (s.st != 0) := if_neg (by simp [h])

theorem State.keyEvent_halted (h : s.halted = true) (k : Key) (b : Bool) : s.keyEvent k b = s := if_pos h

theorem State.keyEvent_running (h : s.halted = false) (k : Key) (b : Bool) : s.keyEvent k b = s.setKey k b :=
  if_neg (by simp [h])

theorem State.stop_halted (h : s.halted = true) : s.stop = s := if_pos h

theorem State.stop_running (h : s.halted = false) : s.stop = { s with stopped := true } := if_neg (by simp [h])

/-- Setting a key to what it is writes nothing. -/
theorem State.setKey_self (s : State) (k : Key) : s.setKey k s.keys[k.val] = s := by
  rw [State.setKey, Vector.set_getElem_self]

/-- Every action of every agent but Reset leaves a halted core as it is (R209, R210). -/
theorem perform_halted (h : s.halted = true) {a : Action} (ha : ∀ image, a ≠ .restart image) :
    perform a s = .next s := by
  cases a with
  | step => exact cpuStep_halted h
  | tick => exact congrArg Host.Outcome.next (State.tick_halted h)
  | keyEvent k b => exact congrArg Host.Outcome.next (State.keyEvent_halted h k b)
  | snapshot => rfl
  | stop => exact congrArg Host.Outcome.next (State.stop_halted h)
  | restart image => exact absurd rfl (ha image)

end

/-- Settles O15: `perform_halted`; the tone is gated by the halt. -/
theorem haltedCoreIsFrozen : Obligations.HaltedCoreIsFrozen := by
  intro s hs
  have h := State.halted_iff.mpr hs
  exact ⟨perform_halted h nofun, perform_halted h nofun, fun _ _ => perform_halted h nofun, perform_halted h nofun,
    by simp [State.tone, h], State.tickTone_halted h, rfl⟩

/-- Settles O16: nothing but the schedule changes, in the CPU's step and in a scheduled action alike. -/
theorem onlyResetLeavesHalt : Obligations.OnlyResetLeavesHalt := by
  intro s t hs h hreset
  cases hq : s.sched with
  | nil =>
    rw [step_unscheduled hq, cpuStep_halted hs] at h
    cases h
    exact ⟨hs, rfl, rfl⟩
  | cons a rest =>
    have hs' : State.halted { s with sched := rest } = true := hs
    rw [step_scheduled hq, perform_halted hs' fun image ha => hreset image rest (ha ▸ hq)] at h
    cases h
    exact ⟨hs, rfl, rfl⟩

/-! ## Every action is answered by a next state (R208, log entry 2) -/

theorem finish_next (s : State) (r : Except Fault State) : ∃ t, finish s r = .next t := by
  cases r with
  | ok t => exact ⟨t, rfl⟩
  | error f => exact ⟨s.latch f, rfl⟩

theorem exec_next (i : Instr) (s : State) : ∃ t, exec i s = .next t := by
  cases i with
  | ret | callNNN _ | drwVxVyN _ _ _ | skpVx _ | sknpVx _ | ldBVx _ | ldIV _ | ldVI _ => exact finish_next s _
  | ldVxK x =>
    cases hk : lowestKey s.keys with
    | none => exact ⟨_, exec_ldVxK_of_none hk x⟩
    | some k => exact ⟨_, exec_ldVxK_of_some hk x⟩
  | _ => exact ⟨_, rfl⟩

theorem cpuStep_next (s : State) : ∃ t, cpuStep s = .next t := by
  cases hs : s.halted with
  | true => exact ⟨s, cpuStep_halted hs⟩
  | false =>
    cases hf : fetch s with
    | error f => exact ⟨_, cpuStep_fetch_error hs hf⟩
    | ok ir =>
      cases hd : decode ir with
      | error e => exact ⟨_, cpuStep_decode_error hs hf hd⟩
      | ok i => exact cpuStep_exec hs hf hd ▸ exec_next i s

theorem perform_next (a : Action) (s : State) : ∃ t, perform a s = .next t := by
  cases a with
  | step => exact cpuStep_next s
  | _ => exact ⟨_, rfl⟩

/-- Settles O17: `cpuStep_next` where nothing is scheduled, `perform_next` otherwise. -/
theorem everyStepIsAnsweredByANextState : Obligations.EveryStepIsAnsweredByANextState := by
  refine ⟨fun s => ?_, exec_next⟩
  cases hq : s.sched with
  | nil => exact step_unscheduled hq ▸ cpuStep_next s
  | cons a rest => exact step_scheduled hq ▸ perform_next a _

/-! ## The timers and the tone (R212, R213) -/

theorem countDown_toNat (b : Byte) : (countDown b).toNat = b.toNat - 1 := by
  rw [countDown, BitVec.toNat_ofNat]
  omega

theorem byte_bne_zero (b : Byte) : (b != 0) = decide (0 < b.toNat) := by
  rw [Bool.eq_iff_iff, bne_iff_ne, decide_eq_true_iff, Nat.pos_iff_ne_zero, Ne, Ne, ← BitVec.toNat_inj]
  rfl

/-- Settles O46: each timer is written once, and the tone is the sound timer's value before. -/
theorem tickCountsBothTimersDown : Obligations.TickCountsBothTimersDown := by
  intro s hs
  have htone : s.tickTone = some (decide (0 < s.st.toNat)) := by rw [State.tickTone_running hs, byte_bne_zero]
  refine ⟨_, congrArg Host.Outcome.next (State.tick_running hs), countDown_toNat _, countDown_toNat _,
    fun hpos => ?_, fun hzero => ?_, ((KeptBut.refl _ s).setDT (by simp) _).setST (by simp) _⟩
  · rw [htone, decide_eq_true hpos]
  · rw [htone, decide_eq_false (by omega)]

/-- `k` ticks of a running core leave it running and take `k` from its sound timer. -/
theorem tick_iterate {s : State} (hs : s.halted = false) (k : Nat) :
    (State.tick^[k] s).halted = false ∧ (State.tick^[k] s).st.toNat = s.st.toNat - k := by
  induction k with
  | zero => exact ⟨hs, rfl⟩
  | succ k ih =>
    obtain ⟨hrun, hst⟩ := ih
    rw [Function.iterate_succ_apply', State.tick_running hrun]
    refine ⟨hrun, ?_⟩
    rw [State.setST_st, countDown_toNat, hst, Nat.sub_sub]

/-- Settles O47: after `k` ticks the sound timer is `ST - k`, which is not 0 while `k < ST`. -/
theorem soundTimerGivesItsNumberOfTones : Obligations.SoundTimerGivesItsNumberOfTones := by
  intro s k hs
  obtain ⟨hrun, hst⟩ := tick_iterate hs k
  have hon : ((State.tick^[k] s).st != 0) = decide (k < s.st.toNat) := by
    rw [byte_bne_zero, hst, decide_eq_decide]
    exact Nat.sub_pos_iff_lt
  exact ⟨by rw [State.tickTone_running hrun, hon], by rw [State.tone, hrun, hon, Bool.not_false, Bool.and_true]⟩

/-! ## Key events, snapshots and the stop (R214, R215, R220) -/

/-- Settles O49: one entry of the latch is written, with what it holds already in a repeated event. -/
theorem keyEventSetsOneKey : Obligations.KeyEventSetsOneKey := by
  refine fun k b s => ⟨fun hs => ?_, fun hs => perform_halted hs nofun, fun hb => ?_⟩
  · refine ⟨_, congrArg Host.Outcome.next (State.keyEvent_running hs k b), Vector.getElem_set_self k.isLt,
      fun j hj => ?_, (KeptBut.refl _ s).setKey (by simp) k b⟩
    exact Vector.getElem_set_ne k.isLt j.isLt (Fin.val_ne_of_ne hj.symm)
  · have hsame : s.keyEvent k b = s := by
      cases hs : s.halted with
      | true => exact State.keyEvent_halted hs k b
      | false => rw [State.keyEvent_running hs, ← hb, State.setKey_self]
    exact ⟨s, congrArg Host.Outcome.next hsame, KeptBut.refl _ s⟩

/-- Settles O50: the snapshot is the framebuffer itself. -/
theorem snapshotReadsAndWritesNothing : Obligations.SnapshotReadsAndWritesNothing := fun _ => ⟨rfl, fun _ _ => rfl⟩

/-- Settles O51: `STOPPED` alone is written, and it halts the core. -/
theorem stopHaltsARunningCore : Obligations.StopHaltsARunningCore := fun s hs =>
  ⟨_, congrArg Host.Outcome.next (State.stop_running hs), rfl, State.halted_iff.mpr (.inr rfl),
    (State.running_iff.mp hs).1, keptBut_stopped s true⟩

end Sys2Proof.Machine
end

/-! SUPPORT. Proofs of the statements on reset and on what a run can rely on (spec/70_reset_and_hazards.md): the state that
Reset and the loader leave, that the delay timer grows by its own instruction alone, and the self jump. -/

section

namespace Sys2Proof.Machine

open Sys2Proof.Claims

/-! ## Reset (R35, R56, R230) -/

/-- The model's one row of font bytes holds the glyphs of R56 five by five. -/
theorem resetByte_glyph {d r : Nat} (hd : d < 16) (hr : r < 5) :
    (resetByte (0x050 + 5 * d + r)).toNat = (glyphs.getD d []).getD r 0 := by
  have htable : ∀ d < 16, ∀ r < 5, (resetByte (0x050 + 5 * d + r)).toNat = (glyphs.getD d []).getD r 0 := by decide
  exact htable d hd r hr

theorem resetMemory_nil : ResetMemory [] := by
  refine ⟨fun d r hd hr => resetByte_glyph hd hr, fun a ha => ?_⟩
  rw [Memory.read_nil, resetByte_outside_font (by omega)]
  rfl

theorem resetFields_reset : ResetFields State.reset :=
  ⟨by decide, rfl, rfl, rfl, by decide, rfl, rfl, by decide, FrameBuffer.pixel_clear, rfl, rfl, rfl⟩

/-- Reset with an image, loaded or refused, leaves every field but memory and the model's own two as `State.reset` has it. -/
theorem resetFields_restart (s : State) (image : List Byte) : ResetFields (s.restart image) := by
  by_cases h : image.length ≤ 3584
  · rw [State.restart_fits h]
    exact resetFields_reset
  · rw [State.restart_refused (Nat.not_le.mp h)]
    exact resetFields_reset

/-- Settles O52: Reset without an image lists no cell of memory. -/
theorem resetPutsEveryFieldAtItsValue : Obligations.ResetPutsEveryFieldAtItsValue := by
  refine ⟨⟨resetFields_reset, resetMemory_nil⟩, fun s => ⟨_, rfl, resetFields_restart s [], ?_⟩⟩
  rw [State.restart_fits (Nat.zero_le _)]
  exact resetMemory_nil

/-! ## The loader (R231, decision D27) -/

/-- Every byte after an image that fits: the image's own in its range, the one after Reset elsewhere. -/
theorem State.restart_read {image : List Byte} (h : image.length ≤ 3584) (s : State) (a : Nat) :
    (s.restart image).mem.read a =
      if 0x200 ≤ a ∧ a < 0x200 + image.length then image.getD (a - 0x200) 0 else State.reset.mem.read a := by
  rw [State.restart_fits h]
  exact Memory.read_writeAll List.Pairwise.nil 0x200 image a

/-- Settles O53: a loaded image is read back by `State.restart_read`, and a refused one leaves the memory of Reset. -/
theorem loadImagePlacesTheBytes : Obligations.LoadImagePlacesTheBytes := by
  intro image s
  refine ⟨_, rfl, resetFields_restart s image, fun h => ⟨fun j hj => ?_, fun a ha => ?_⟩, fun h => ?_⟩
  · rw [State.restart_read h, if_pos (by omega), Nat.add_sub_cancel_left]
  · rw [State.restart_read h, if_neg ha]
  · rw [State.restart_refused h]
    exact resetMemory_nil

/-! ## The delay timer (R26, R235) -/

/-- The one instruction that changes `DT`, and what it writes there. -/
theorem dt_written_of_exec {i : Instr} {s t : State} (h : exec i s = .next t) (hdt : t.dt ≠ s.dt) :
    ∃ x, i = .ldDTVx x ∧ t.dt = s.getV x := by
  obtain ⟨x, rfl⟩ := (exec_writesOwnParts h).dt hdt
  cases h
  exact ⟨x, rfl, rfl⟩

/-- A CPU step that changes `DT` ran that instruction: a halted step and a latched fault keep it. -/
theorem dt_written_of_cpuStep {s t : State} (h : cpuStep s = .next t) (hdt : t.dt ≠ s.dt) :
    ∃ ir x, fetch s = .ok ir ∧ decode ir = .ok (.ldDTVx x) ∧ t.dt = s.getV x := by
  obtain ⟨_, rfl⟩ | ⟨_, f, _, rfl⟩ | ⟨_, ir, e, _, _, rfl⟩ | ⟨_, ir, i, hf, hd, hi⟩ := cpuStep_cases h
  · exact absurd rfl hdt
  · exact absurd rfl hdt
  · exact absurd rfl hdt
  · obtain ⟨x, rfl, hx⟩ := dt_written_of_exec hi hdt
    exact ⟨ir, x, hf, hd, hx⟩

theorem State.tick_dt_le (s : State) : s.tick.dt.toNat ≤ s.dt.toNat := by
  cases hs : s.halted with
  | true => rw [State.tick_halted hs]
  | false =>
    rw [State.tick_running hs, State.setST_dt, State.setDT_dt, countDown_toNat]
    exact Nat.sub_le _ _

theorem State.keyEvent_dt (s : State) (k : Key) (b : Bool) : (s.keyEvent k b).dt = s.dt := by
  cases hs : s.halted with
  | true => rw [State.keyEvent_halted hs]
  | false => rw [State.keyEvent_running hs, State.setKey_dt]

theorem State.stop_dt (s : State) : s.stop.dt = s.dt := by
  cases hs : s.halted with
  | true => rw [State.stop_halted hs]
  | false => rw [State.stop_running hs]

theorem State.restart_dt (s : State) (image : List Byte) : (s.restart image).dt.toNat = 0 := by
  obtain ⟨_, _, _, _, _, hdt, _⟩ := resetFields_restart s image
  exact hdt

/-- No agent but the CPU raises `DT`. -/
theorem perform_dt_le {a : Action} (ha : a ≠ .step) {s t : State} (h : perform a s = .next t) :
    t.dt.toNat ≤ s.dt.toNat := by
  cases a with
  | step => exact absurd rfl ha
  | tick => cases h; exact s.tick_dt_le
  | keyEvent k b => cases h; rw [State.keyEvent_dt]
  | snapshot => cases h; exact le_rfl
  | stop => cases h; rw [State.stop_dt]
  | restart image => cases h; rw [State.restart_dt]; exact Nat.zero_le _

/-- Settles O48: a scheduled action that raises `DT` is the CPU's, and a CPU step that changes it ran LD DT,Vx. -/
theorem delayTimerGrowsOnlyByItsWrite : Obligations.DelayTimerGrowsOnlyByItsWrite := by
  intro s t h hlt
  have hne : t.dt ≠ s.dt := fun heq => absurd hlt (heq ▸ Nat.lt_irrefl _)
  cases hq : s.sched with
  | nil => exact ⟨.inl rfl, dt_written_of_cpuStep ((step_unscheduled hq).symm.trans h) hne⟩
  | cons a rest =>
    rw [step_scheduled hq] at h
    by_cases ha : a = .step
    · subst ha
      exact ⟨.inr ⟨rest, rfl⟩, dt_written_of_cpuStep (s := { s with sched := rest }) h hne⟩
    · have hle : t.dt.toNat ≤ s.dt.toNat := perform_dt_le (s := { s with sched := rest }) ha h
      exact absurd hlt (Nat.not_lt.mpr hle)

/-! ## The self jump (R123, R233, decision D32) -/

/-- A step that answers the state it started in is the whole run, however long. -/
theorem run_of_step_self {M : Host.Core} {s : M.State} (h : M.step s = .next s) (k : Nat) : M.run k s = .next s := by
  induction k with
  | zero => rfl
  | succ k ih =>
    rw [Host.Core.run, h]
    exact ih

/-- With nothing scheduled, the CPU runs the jump, and `pc` is its target already. -/
theorem step_selfJump {s : State} {nnn : Imm12} (hs : s.halted = false) (hq : s.sched = [])
    (hf : fetch s = .ok (encode (.jpNNN nnn))) (hpc : s.pc.toNat = nnn.toNat) : step s = .next s := by
  obtain ⟨_, hself⟩ := jumpWritesTheTarget
  rw [step_unscheduled hq, cpuStep_exec hs hf (decodeAfterEncodeIsIdentity _ rfl), hself nnn s hpc]

/-- Settles O60: every prefix of the run ends in `s` itself, which is running and so has no fault. -/
theorem selfJumpSpinsSafely : Obligations.SelfJumpSpinsSafely := by
  intro s nnn hs hq hf hpc
  have hrun := run_of_step_self (M := Sys2Proof.core) (step_selfJump hs hq hf hpc)
  exact ⟨hrun, fun _ j _ => ⟨s, hrun j, (State.running_iff.mp hs).1⟩⟩

end Sys2Proof.Machine
end
